-- ==== Sys2Proof/Word.lean ====
section
/-! DEFINITION. The bit vectors of the block (00_scope.md rules R5, R6): bytes, words, frame values. Bit 0 is the
least significant bit everywhere; nothing is signed. -/

namespace Sys2Proof

/-- One element of the byte streams (R51, R59). -/
abbrev Byte := BitVec 8

/-- A CRC word or a frame argument (R5: `WORD_WIDTH`, `ARG_WIDTH`). -/
abbrev Word := BitVec 32

/-- The 40-bit frame value `F = {B0, B1, B2, B3, B4}` of a five-byte frame (R70). -/
abbrev FrameValue := BitVec 40

end Sys2Proof
end

