-- ==== Sys2Proof/Config.lean ====
section
/-! DEFINITION. The parameters of the block (00_scope.md rule R5): the fixed ones as constants, the two open ones
(`WORD_ORDER`, `TAIL_POLICY`) as the structure `Config`, constant for the life of a model instance. -/

namespace Sys2Proof

/-- `POLY` (R5): the generator polynomial of the block. The pure functions take any polynomial (90_conflicts.md C4). -/
def POLY : Word := 0x04C11DB7#32

/-- `INIT` (R5): the value `crc` starts from. -/
def INIT : Word := 0xFFFFFFFF#32

/-- `FRAME_LEN` (R5, R70): "Invariant: length always 5". -/
def FRAME_LEN : Nat := 5

/-- `WORD_ORDER` (R53): which of four image bytes is the least significant byte of the word. -/
inductive WordOrder where
  /-- the first byte is the least significant -/
  | little
  /-- the first byte is the most significant -/
  | big
deriving DecidableEq, Repr

/-- `TAIL_POLICY` (R5, R100): what `CRC_FLUSH` does with a residue of 1 to 3 bytes. -/
inductive TailPolicy where
  /-- `CRC_FLUSH` is refused with `TailResidue` -/
  | refuse
  /-- the residue is padded with zero bytes and absorbed as a word -/
  | zeroPad
  /-- the residue is discarded -/
  | drop
deriving DecidableEq, Repr

/-- The open parameters of a model instance (R5). -/
structure Config where
  wordOrder : WordOrder
  tailPolicy : TailPolicy
deriving DecidableEq, Repr

/-- The defaults of R5: "the default is what the model uses when a claim does not name it". -/
def Config.default : Config := { wordOrder := .little, tailPolicy := .refuse }

end Sys2Proof
end

