-- ==== Sys2Proof/Machine/State.lean ====
section
/-! DEFINITION. The state of the block as plain data (10_state.md rules R20 to R37), the operations of its interface
(R33) with their results, and the outcomes of a step. -/

namespace Sys2Proof.Machine

/-- The decoder's verdict on a wire opcode (41_frame_commands.md rule R127): five commands, `Invalid`, `Reserved`. -/
inductive FrameClass where
  | invalid
  | echo
  | setsize
  | update
  | check
  | jump
  | reserved
deriving DecidableEq, Repr

/-- The record `frame(op, arg, class)` (43_frame_decoder.md rule R140). -/
structure Frame where
  op : Byte
  arg : Word
  cls : FrameClass
deriving DecidableEq, Repr

/-- The ten operations of the block, "the only ways its state is read or written" (10_state.md rule R33). -/
inductive Op where
  /-- `RESET` (R200) -/
  | reset
  /-- `CRC_INIT` (R96) -/
  | crcInit
  /-- `CRC_WORD(w)` (R97) -/
  | crcWord (w : Word)
  /-- `CRC_BYTE(b)` (R98) -/
  | crcByte (b : Byte)
  /-- `CRC_FLUSH` (R100) -/
  | crcFlush
  /-- `CRC_READ` (R101) -/
  | crcRead
  /-- `ENC_LOAD(op, arg)` (R132) -/
  | encLoad (op : Byte) (arg : Word)
  /-- `ENC_POP` (R133) -/
  | encPop
  /-- `DEC_BYTE(b)` (R142) -/
  | decByte (b : Byte)
  /-- `DEC_SYNC` (R143) -/
  | decSync
deriving DecidableEq, Repr

/-- The five refusal reasons, complete (60_exceptions.md rule R181). A refusal of an operation is no end of a run: the
registers stay, the reason is the operation's result, and "the block is immediately ready for the next operation"
(R180). -/
inductive RefusalReason where
  /-- `CRC_WORD` with `PK_CNT != 0` -/
  | wordWhileResidue
  /-- `CRC_FLUSH` with `PK_CNT != 0` under `TAIL_POLICY = refuse` -/
  | tailResidue
  /-- `ENC_LOAD` with an opcode that is no command -/
  | badOpcode
  /-- `ENC_LOAD` with `ENC_CNT != 0` -/
  | encoderBusy
  /-- `ENC_POP` with `ENC_CNT = 0` -/
  | encoderIdle
deriving DecidableEq, Repr

/-- What an operation answers (R33, column "result"). -/
inductive OpResult where
  /-- completed, the operation has no result -/
  | done
  /-- `CRC_READ`: the value of `CRC` -/
  | word (w : Word)
  /-- `ENC_POP`: the byte emitted -/
  | byte (b : Byte)
  /-- `DEC_BYTE` that does not complete a frame: `nothing` -/
  | nothing
  /-- `DEC_BYTE` that completes a frame -/
  | frame (f : Frame)
  /-- the operation was refused (R180) -/
  | refused (r : RefusalReason)
deriving DecidableEq, Repr

/-- The state: the seven registers of R20, the configuration of the instance (R5; no operation writes it), and the
model's own two lists that stand for the interface: what the environment will issue and what it has been answered. -/
structure State where
  /-- `CRC[31:0]` (R21) -/
  crc : Word
  /-- `PK_BUF[23:0]` (R22) -/
  pkBuf : BitVec 24
  /-- `PK_CNT[1:0]` (R23) -/
  pkCnt : BitVec 2
  /-- `ENC_SR[39:0]` (R24) -/
  encSr : FrameValue
  /-- `ENC_CNT[2:0]`, legal 0 to 5 (R25) -/
  encCnt : BitVec 3
  /-- `DEC_SR[31:0]` (R26) -/
  decSr : Word
  /-- `DEC_CNT[2:0]`, legal 0 to 4 (R27) -/
  decCnt : BitVec 3
  /-- `WORD_ORDER` and `TAIL_POLICY` (R5). DESIGN CHOICE, log entry 1: carried in State, constant; safe. -/
  config : Config
  /-- The operations the environment will issue, the next one first (R9, R60). DESIGN CHOICE, log entry 2; safe. -/
  pending : List Op
  /-- The operations performed with their results, the oldest first (R33, R51, R193). DESIGN CHOICE, log entry 3; safe. -/
  transcript : List (Op × OpResult)
deriving DecidableEq, Repr

/-- Faults of the machine: none. "No behaviour of the block is treated as `fault` or `stuck`"
(93_implementation_defined.md; 60_exceptions.md rule R184), so nobody raises one. -/
inductive Fault where
deriving DecidableEq, Repr

/-- Refusals of a step (the host's word; not the refusals of R181, which are results of operations). -/
inductive Refusal where
  /-- Raised by an arm of exec whose instruction has no meaning yet; safe. No arm raises it now. -/
  | notModelled (mnemonic : String)
deriving DecidableEq, Repr

/-- The state after `RESET` (R36, R200: "A model's initial state is the state after `RESET`"), under the default
configuration (R5), with nothing issued and nothing answered. -/
def State.reset : State where
  crc := INIT
  pkBuf := 0#24
  pkCnt := 0#2
  encSr := 0#40
  encCnt := 0#3
  decSr := 0#32
  decCnt := 0#3
  config := Config.default
  pending := []
  transcript := []

end Sys2Proof.Machine
end

