-- ==== Sys2Proof/Machine/Flags.lean ====
section
/-! DEFINITION. The three status values (10_state.md rule R31): pure functions of the counters, sampled without any
effect. The block has no stored flag and no operation sets one. -/

namespace Sys2Proof.Machine

/-- `CRC_RESIDUE = (PK_CNT != 0)` (R31). -/
def State.crcResidue (s : State) : Bool := s.pkCnt != 0#2

/-- `ENC_BUSY = (ENC_CNT != 0)` (R31). -/
def State.encBusy (s : State) : Bool := s.encCnt != 0#3

/-- `DEC_MIDFRAME = (DEC_CNT != 0)` (R31). -/
def State.decMidframe (s : State) : Bool := s.decCnt != 0#3

end Sys2Proof.Machine
end

