-- ==== Sys2Proof/Syntax.lean ====
section
/-! DEFINITION. The wire instructions: one constructor per row of spec/opcode_table.json (30_encoding.md rules R74,
R82), each with the one immediate of format F5, the 32-bit argument (R72). The opcodes `0x06` to `0xFF` have no row
(R82) and so no constructor: a frame with one is Reserved (R76) and the Decoder delivers it as such. -/

namespace Sys2Proof

/-- A frame with a named opcode, written `MNEMONIC(arg)` (R80). -/
inductive Instr where
  /-- opcode `0x00`, "invalid/unused" (R120): no command, but a frame the Decoder delivers -/
  | invalid (arg : Word)
  /-- opcode `0x01` (R121) -/
  | echo (arg : Word)
  /-- opcode `0x02` (R122) -/
  | setsize (arg : Word)
  /-- opcode `0x03` (R123) -/
  | update (arg : Word)
  /-- opcode `0x04` (R124) -/
  | check (arg : Word)
  /-- opcode `0x05` (R125): transfers no control in this block -/
  | jump (arg : Word)
deriving DecidableEq, Repr

end Sys2Proof
end

