-- ==== Sys2Proof/WellFormed.lean ====
section
/-! DEFINITION. Well-formedness. A wire instruction has one operand, a 32-bit argument that is "checked against
nothing" (30_encoding.md rule R72), so its type already says all there is to say. What can be ill-formed is a wire
frame (R70: exactly five bytes), a `Command` (41_frame_commands.md rule R128: `INVALID` is none) and a residue
(40_checksum_engine.md rule R95: one to three bytes). -/

namespace Sys2Proof

/-- R72: every argument is legal with every opcode, so every instruction is well-formed. -/
def Instr.wellFormed : Instr → Bool
  | .invalid _ => true
  | .echo _ => true
  | .setsize _ => true
  | .update _ => true
  | .check _ => true
  | .jump _ => true

/-- R128 (`encoder_accepts` of spec/opcode_table.json): the instructions that are a `Command`, which a sender may
construct. -/
def Instr.isSendable : Instr → Bool
  | .invalid _ => false
  | .echo _ => true
  | .setsize _ => true
  | .update _ => true
  | .check _ => true
  | .jump _ => true

/-- R70: a frame is exactly five bytes. -/
def isWireFrame (bytes : List Byte) : Bool := bytes.length == FRAME_LEN

/-- R95: the operand of `pad_tail` is a sequence of one to three bytes. -/
def isResidue (bytes : List Byte) : Bool := 1 ≤ bytes.length && bytes.length ≤ 3

end Sys2Proof
end

