-- ==== Sys2Proof/Decode.lean ====
section
/-! DEFINITION. Format F5 (30_encoding.md rules R70 to R76, R82): the fields of a frame, the opcode table, the
decoder from wire bytes to an instruction, total on any bytes and rejecting by name, and the encoder. -/

namespace Sys2Proof

/-- R71: `F = {opcode, arg}`. -/
def frameValue (op : Byte) (arg : Word) : FrameValue := op ++ arg

/-- R71: `opcode = F[39:32]`. -/
def frameOpcode (f : FrameValue) : Byte := f.extractLsb' 32 8

/-- R71: `arg = F[31:0]`. -/
def frameArg (f : FrameValue) : Word := f.extractLsb' 0 32

/-- Byte `k` of a word, byte 0 the least significant: `arg_byte<k>` of R70. -/
def wordByte (w : Word) (k : Nat) : Byte := w.extractLsb' (8 * k) 8

/-- `{b3, b2, b1, b0}`: four bytes as a word, the first given the most significant (R71, R72). -/
def wordOfBytes (b3 b2 b1 b0 : Byte) : Word := b3 ++ b2 ++ b1 ++ b0

/-- The five wire bytes `[B0, B1, B2, B3, B4]` of an opcode and an argument (R70, R71): opcode first, the argument
most significant byte first (20_memory.md rule R52). -/
def frameBytes (op : Byte) (arg : Word) : List Byte :=
  [op, wordByte arg 3, wordByte arg 2, wordByte arg 1, wordByte arg 0]

/-- One row of the opcode table (R74, R82): a frame value `F` selects it iff `F & mask = match`. -/
structure OpcodeRow where
  mnemonic : String
  matchBits : FrameValue
  maskBits : FrameValue
  make : Word → Instr

/-- The `match`/`mask` test of R74. -/
def OpcodeRow.selects (r : OpcodeRow) (f : FrameValue) : Bool := f &&& r.maskBits == r.matchBits

/-- The six rows of spec/opcode_table.json (R74). -/
def opcodeTable : List OpcodeRow :=
  [ ⟨"INVALID", 0x0000000000#40, 0xFF00000000#40, .invalid⟩,
    ⟨"ECHO", 0x0100000000#40, 0xFF00000000#40, .echo⟩,
    ⟨"SETSIZE", 0x0200000000#40, 0xFF00000000#40, .setsize⟩,
    ⟨"UPDATE", 0x0300000000#40, 0xFF00000000#40, .update⟩,
    ⟨"CHECK", 0x0400000000#40, 0xFF00000000#40, .check⟩,
    ⟨"JUMP", 0x0500000000#40, 0xFF00000000#40, .jump⟩ ]

/-- Why bytes are no instruction. -/
inductive DecodeError where
  /-- fewer than the five bytes of a frame (R70); `have` of them are there -/
  | short (bytesHeld : Nat)
  /-- an opcode with no row of the table (R76, R126): the frame is Reserved -/
  | reserved (op : Byte) (arg : Word)
deriving DecidableEq, Repr

/-- R82: the row that the frame value selects; "every frame value that matches no row" is Reserved. -/
def decodeFrameValue (f : FrameValue) : Except DecodeError Instr :=
  match opcodeTable.find? (·.selects f) with
  | some row => .ok (row.make (frameArg f))
  | none => .error (.reserved (frameOpcode f) (frameArg f))

/-- The instruction at the head of a byte stream and the rest of the stream (R70, R73: five bytes whatever the
opcode). -/
def decodeBytes : List Byte → Except DecodeError (Instr × List Byte)
  | b0 :: b1 :: b2 :: b3 :: b4 :: rest =>
    match decodeFrameValue (frameValue b0 (wordOfBytes b1 b2 b3 b4)) with
    | .ok i => .ok (i, rest)
    | .error e => .error e
  | bytes => .error (.short bytes.length)

/-- The opcode byte of each instruction (R74). -/
def Instr.opcode : Instr → Byte
  | .invalid _ => 0x00#8
  | .echo _ => 0x01#8
  | .setsize _ => 0x02#8
  | .update _ => 0x03#8
  | .check _ => 0x04#8
  | .jump _ => 0x05#8

/-- The argument of each instruction (R72). -/
def Instr.arg : Instr → Word
  | .invalid arg => arg
  | .echo arg => arg
  | .setsize arg => arg
  | .update arg => arg
  | .check arg => arg
  | .jump arg => arg

/-- The wire bytes of an instruction (R70, R71 and the encodings of R120 to R125). -/
def encode (i : Instr) : List Byte := frameBytes i.opcode i.arg

/-- The frame value a table word stands for. spec/opcode_table.json numbers the bits of the whole 40-bit frame value,
bit 0 the last bit on the wire (R70, R82); bits at or above `nbits` are 0. -/
def tableFrameValue (nbits w : Nat) : FrameValue := BitVec.ofNat 40 (w % 2 ^ nbits)

/-- The instruction the decoder reads from the frame value numbered as spec/opcode_table.json numbers it: the five
bytes of the value, the most significant first (R70), through `decodeBytes`. -/
def decodeTableWord (nbits w : Nat) : Option Instr :=
  let f := tableFrameValue nbits w
  match decodeBytes (frameBytes (frameOpcode f) (frameArg f)) with
  | .ok (i, _) => some i
  | .error _ => none

end Sys2Proof
end

