-- ==== Sys2Proof/Machine/Operands.lean ====
section
/-! DEFINITION. The operands of the operations: opcode classes (R127), the frame record of five wire bytes (R140), the
bytes of the packer (R22) and of the two shift registers (R24, R26), words from image bytes (R53, R94, R95). -/

namespace Sys2Proof.Machine

/-- `class_of(op)` (R127). -/
def classOf (op : Byte) : FrameClass :=
  if op = 0x00#8 then .invalid
  else if op = 0x01#8 then .echo
  else if op = 0x02#8 then .setsize
  else if op = 0x03#8 then .update
  else if op = 0x04#8 then .check
  else if op = 0x05#8 then .jump
  else .reserved

/-- `is_command(op)`: `0x01 <= op <= 0x05` (R127). -/
def isCommand (op : Byte) : Bool := decide (0x01#8 ≤ op) && decide (op ≤ 0x05#8)

/-- `opcode_of` (R127): the inverse of `class_of` on the five commands; `Invalid` and `Reserved` have none. -/
def opcodeOf : FrameClass → Option Byte
  | .echo => some 0x01#8
  | .setsize => some 0x02#8
  | .update => some 0x03#8
  | .check => some 0x04#8
  | .jump => some 0x05#8
  | .invalid => none
  | .reserved => none

/-- `encode(op, arg)` (R130): "outside" its domain `is_command(op)` it "is not defined". -/
def encodeCommand (op : Byte) (arg : Word) : Option (List Byte) :=
  if isCommand op then some (frameBytes op arg) else none

/-- `decode([B0, B1, B2, B3, B4])` (R140), on exactly five bytes. -/
def decodeFrame : List Byte → Option Frame
  | [b0, b1, b2, b3, b4] => some { op := b0, arg := wordOfBytes b1 b2 b3 b4, cls := classOf b0 }
  | _ => none

/-- `assemble(b0, b1, b2, b3)` (R53): four image bytes, `b0` first in the stream, as a word. -/
def assemble : WordOrder → Byte → Byte → Byte → Byte → Word
  | .little, b0, b1, b2, b3 => wordOfBytes b3 b2 b1 b0
  | .big, b0, b1, b2, b3 => wordOfBytes b0 b1 b2 b3

/-- `words_of_bytes(bs)` (R94): the whole words and the tail of 0 to 3 bytes. -/
def wordsOfBytes (order : WordOrder) : List Byte → List Word × List Byte
  | b0 :: b1 :: b2 :: b3 :: rest =>
    (assemble order b0 b1 b2 b3 :: (wordsOfBytes order rest).1, (wordsOfBytes order rest).2)
  | tail => ([], tail)

/-- `pad_tail(r)` (R95): the residue followed in stream order by zero bytes, as a word. -/
def padTail (order : WordOrder) (r : List Byte) : Word :=
  assemble order (r.getD 0 0#8) (r.getD 1 0#8) (r.getD 2 0#8) (r.getD 3 0#8)

/-- `PK_BUF[8k+7 : 8k]` (R22). -/
def bufByte (buf : BitVec 24) (k : Nat) : Byte := buf.extractLsb' (8 * k) 8

/-- `PK_BUF[8k+7 : 8k] <- b`, the other bits as they were (R22, R98). DEDUCED, log entry 7; safe: unread bits stay stale. -/
def setBufByte (buf : BitVec 24) (k : Nat) (b : Byte) : BitVec 24 :=
  (buf &&& ~~~(0xFF#24 <<< (8 * k))) ||| (b.setWidth 24 <<< (8 * k))

/-- The residue: the `n` bytes held in the packer, the first received first (R22, R100). -/
def bufBytes (buf : BitVec 24) (n : Nat) : List Byte := (List.range n).map (bufByte buf)

/-- `ENC_SR[39:32]`, the next byte to emit (R24). -/
def encTopByte (sr : FrameValue) : Byte := sr.extractLsb' 32 8

/-- `{ENC_SR[31:0], 8'h00}` (R133). -/
def encShift (sr : FrameValue) : FrameValue := sr.extractLsb' 0 32 ++ 0#8

/-- `{DEC_SR[23:0], b}` (R142). -/
def decShift (sr : Word) (b : Byte) : Word := sr.extractLsb' 0 24 ++ b

/-- The frame value of the frame whose first four bytes are `DEC_SR` and whose fifth is `b` (R26, R142):
`op = DEC_SR[31:24]`, `arg = {DEC_SR[23:0], b}`. -/
def completedFrame (sr : Word) (b : Byte) : FrameValue := sr ++ b

end Sys2Proof.Machine
end

