-- ==== Sys2Proof/Machine/Ops.lean ====
section
/-! DEFINITION. The named operations over the registers that several meanings share: answering an operation, refusing
one (the block's only abnormal outcome, 60_exceptions.md rule R180; it has no exception to take and none to return
from, R184, R186), delivering a frame (43_frame_decoder.md rule R142), placing a frame to be received. -/

namespace Sys2Proof.Machine

/-- The operation `o` is over and has the result `r` (R33; R7 `out <- v`, `emit(b)`). No register changes. -/
def State.answer (s : State) (o : Op) (r : OpResult) : State :=
  { s with transcript := s.transcript ++ [(o, r)] }

/-- `refuse(reason)` (R7, R180): no register changes; the result is the reason. DEDUCED, log entry 4; safe: a next state. -/
def State.refuse (s : State) (o : Op) (reason : RefusalReason) : State :=
  s.answer o (.refused reason)

/-- The end of a frame (R142, the branch `DEC_CNT = 4`): the record is the result of the `DEC_BYTE` that brought the
last byte, which is `arg[7:0]`, and the Decoder returns to the frame boundary; `DEC_SR` keeps its stale bytes. -/
def State.deliver (s : State) (f : Frame) : State :=
  { s.answer (.decByte (wordByte f.arg 0)) (.frame f) with decCnt := 0#3 }

/-- The next byte of a frame that it does not complete (R142, the branch `DEC_CNT < 4`). -/
def State.receiveByte (s : State) (b : Byte) : State :=
  { s.answer (.decByte b) .nothing with decSr := decShift s.decSr b, decCnt := s.decCnt + 1#3 }

/-- Whether the last operation performed was refused. -/
def State.lastRefused (s : State) : Bool :=
  match s.transcript.getLast? with
  | some (_, .refused _) => true
  | _ => false

/-- The block about to receive the last byte of the frame `f`: the four bytes before it are in `DEC_SR` (R26), and
its `DEC_BYTE` is the next operation the environment issues. -/
def State.placeFrame (s : State) (f : FrameValue) : State :=
  { s with
    decSr := f.extractLsb' 8 32
    decCnt := 4#3
    pending := .decByte (f.extractLsb' 0 8) :: s.pending }

end Sys2Proof.Machine
end

