-- ==== Sys2Proof/Machine/Checksum.lean ====
section
/-! DEFINITION. The Checksum Engine (40_checksum_engine.md): the algorithm as pure functions for any initial value and
polynomial (R90 to R92, 90_conflicts.md C4), and the operations on `CRC` and the packer (R96 to R101). -/

namespace Sys2Proof.Machine

/-- `crc_shift1(c, P)` (R90): the test is on the top bit before the shift. -/
def crcShift1 (c P : Word) : Word :=
  if c.getLsbD 31 then (c <<< 1) ^^^ P else c <<< 1

/-- `n` applications of `crc_shift1(·, P)`. -/
def crcShifts (P : Word) : Nat → Word → Word
  | 0, c => c
  | n + 1, c => crcShifts P n (crcShift1 c P)

/-- `crc_word(c, w, P)` (R91): the word is XORed in whole and once, then exactly 32 shifts. -/
def crcWord (c w P : Word) : Word := crcShifts P 32 (c ^^^ w)

/-- `compute_checksum(words, I, P)` (R92): "state carries across words", no final XOR, no reflection. -/
def computeChecksum (words : List Word) (I P : Word) : Word :=
  words.foldl (fun c w => crcWord c w P) I

/-- `crc_byte(c, b, P)` (R105 d): "not an operation of the block; it is a proof device only". -/
def crcByteSerial (c : Word) (b : Byte) (P : Word) : Word :=
  crcShifts P 8 (c ^^^ (b ++ 0#24))

/-- `CRC_INIT` (R96). -/
def doCrcInit (s : State) : State :=
  { s.answer .crcInit .done with crc := INIT, pkBuf := 0#24, pkCnt := 0#2 }

/-- `CRC_WORD(w)` (R97). -/
def doCrcWord (w : Word) (s : State) : State :=
  if s.crcResidue then s.refuse (.crcWord w) .wordWhileResidue
  else { s.answer (.crcWord w) .done with crc := crcWord s.crc w POLY }

/-- The word that the fourth byte `b` completes (R98). -/
def packedWord (s : State) (b : Byte) : Word :=
  assemble s.config.wordOrder (bufByte s.pkBuf 0) (bufByte s.pkBuf 1) (bufByte s.pkBuf 2) b

/-- `CRC_BYTE(b)` (R98): `WORD_ORDER` is applied only when the fourth byte arrives; `PK_BUF` then keeps its stale
bytes. -/
def doCrcByte (b : Byte) (s : State) : State :=
  if s.pkCnt < 3#2 then
    { s.answer (.crcByte b) .done with
      pkBuf := setBufByte s.pkBuf s.pkCnt.toNat b
      pkCnt := s.pkCnt + 1#2 }
  else
    { s.answer (.crcByte b) .done with
      crc := crcWord s.crc (packedWord s b) POLY
      pkCnt := 0#2 }

/-- `CRC_FLUSH` (R100): nothing without a residue; with one, as `TAIL_POLICY` says. -/
def doCrcFlush (s : State) : State :=
  if s.crcResidue then
    match s.config.tailPolicy with
    | .refuse => s.refuse .crcFlush .tailResidue
    | .drop => { s.answer .crcFlush .done with pkCnt := 0#2 }
    | .zeroPad =>
      { s.answer .crcFlush .done with
        crc := crcWord s.crc (padTail s.config.wordOrder (bufBytes s.pkBuf s.pkCnt.toNat)) POLY
        pkCnt := 0#2 }
  else s.answer .crcFlush .done

/-- `CRC_READ` (R101): the register as it stands; no state changes. -/
def doCrcRead (s : State) : State := s.answer .crcRead (.word s.crc)

end Sys2Proof.Machine
end

