-- ==== Sys2Proof/Machine/Commands.lean ====
section
/-! DEFINITION. What a received frame does at the block, one meaning per wire opcode (41_frame_commands.md rules R120
to R126, the line "decode"): it "is delivered as `frame(op, arg, class)`", opcode and argument intact, whatever its
class (R142, R182). A meaning runs when the frame's fifth byte arrives. The line "encode" of each rule is what the
Encoder's operations do with the opcode (Machine/Encoder.lean, Machine/Pseudo.lean `send`). DESIGN CHOICE, log entry 5;
safe: of the two halves, the meaning of a wire instruction is the receiving one. -/

namespace Sys2Proof.Machine

/-- `INVALID`, opcode `0x00` (R120): delivered with class `Invalid`; "it does not trap" (R75). -/
def execInvalid (arg : Word) (s : State) : Host.Outcome State Fault Refusal :=
  .next (s.deliver { op := 0x00#8, arg := arg, cls := .invalid })

/-- `ECHO(arg)`, opcode `0x01` (R121). -/
def execEcho (arg : Word) (s : State) : Host.Outcome State Fault Refusal :=
  .next (s.deliver { op := 0x01#8, arg := arg, cls := .echo })

/-- `SETSIZE(arg)`, opcode `0x02` (R122). -/
def execSetsize (arg : Word) (s : State) : Host.Outcome State Fault Refusal :=
  .next (s.deliver { op := 0x02#8, arg := arg, cls := .setsize })

/-- `UPDATE(arg)`, opcode `0x03` (R123). -/
def execUpdate (arg : Word) (s : State) : Host.Outcome State Fault Refusal :=
  .next (s.deliver { op := 0x03#8, arg := arg, cls := .update })

/-- `CHECK(arg)`, opcode `0x04` (R124). -/
def execCheck (arg : Word) (s : State) : Host.Outcome State Fault Refusal :=
  .next (s.deliver { op := 0x04#8, arg := arg, cls := .check })

/-- `JUMP(arg)`, opcode `0x05` (R125): "Despite its name it transfers no control in this block". -/
def execJump (arg : Word) (s : State) : Host.Outcome State Fault Refusal :=
  .next (s.deliver { op := 0x05#8, arg := arg, cls := .jump })

/-- A frame with an opcode `0x06` to `0xFF` (R76, R126): delivered with class `Reserved`. It is no row of the opcode
table and so no constructor of `Instr`. -/
def execReserved (op : Byte) (arg : Word) (s : State) : Host.Outcome State Fault Refusal :=
  .next (s.deliver { op := op, arg := arg, cls := .reserved })

end Sys2Proof.Machine
end

