-- ==== Sys2Proof/Machine/Dispatch.lean ====
section
/-! DEFINITION. One arm per constructor of Instr. -/

namespace Sys2Proof.Machine

def exec (i : Instr) (s : State) : Host.Outcome State Fault Refusal :=
  match i with
  | .invalid arg => Sys2Proof.Machine.execInvalid arg s
  | .echo arg => Sys2Proof.Machine.execEcho arg s
  | .setsize arg => Sys2Proof.Machine.execSetsize arg s
  | .update arg => Sys2Proof.Machine.execUpdate arg s
  | .check arg => Sys2Proof.Machine.execCheck arg s
  | .jump arg => Sys2Proof.Machine.execJump arg s

end Sys2Proof.Machine
end

