-- ==== Sys2Proof/Machine/Decoder.lean ====
section
/-! DEFINITION. The Frame Decoder (43_frame_decoder.md): the operations `DEC_BYTE` and `DEC_SYNC`. The function
`decode` is `decodeFrame` of Machine/Operands.lean. -/

namespace Sys2Proof.Machine

/-- A complete frame runs: the instruction its frame value decodes to, or, where it selects no row of the table, the
delivery of a Reserved frame (R76, R82, R126). -/
def runFrame (f : FrameValue) (s : State) : Host.Outcome State Fault Refusal :=
  match decodeFrameValue f with
  | .ok i => exec i s
  | .error _ => execReserved (frameOpcode f) (frameArg f) s

/-- `DEC_BYTE(b)` (R142): the first four bytes are collected; the fifth completes the frame. -/
def doDecByte (b : Byte) (s : State) : Host.Outcome State Fault Refusal :=
  if s.decCnt < 4#3 then .next (s.receiveByte b)
  else runFrame (completedFrame s.decSr b) s

/-- `DEC_SYNC` (R143): the next byte is the first of a frame; the bytes held stay in `DEC_SR` unread. -/
def doDecSync (s : State) : State := { s.answer .decSync .done with decCnt := 0#3 }

end Sys2Proof.Machine
end

