-- ==== Sys2Proof/Machine/Encoder.lean ====
section
/-! DEFINITION. The Frame Encoder (42_frame_encoder.md): the operations `ENC_LOAD` and `ENC_POP`. The function `encode`
is `encodeCommand` of Machine/Operands.lean. -/

namespace Sys2Proof.Machine

/-- `ENC_LOAD(op, arg)` (R132): `BadOpcode` is checked before `EncoderBusy` (R183); the argument is not checked. -/
def doEncLoad (op : Byte) (arg : Word) (s : State) : State :=
  if ¬ isCommand op then s.refuse (.encLoad op arg) .badOpcode
  else if s.encBusy then s.refuse (.encLoad op arg) .encoderBusy
  else { s.answer (.encLoad op arg) .done with encSr := frameValue op arg, encCnt := 5#3 }

/-- `ENC_POP` (R133): emits the top byte and shifts zeros in. -/
def doEncPop (s : State) : State :=
  if s.encBusy then
    { s.answer .encPop (.byte (encTopByte s.encSr)) with
      encSr := encShift s.encSr
      encCnt := s.encCnt - 1#3 }
  else s.refuse .encPop .encoderIdle

end Sys2Proof.Machine
end

