-- ==== Sys2Proof/Machine/Perform.lean ====
section
/-! DEFINITION. `RESET` (70_reset_and_hazards.md rule R200) and the ten operations together (10_state.md rule R33). -/

namespace Sys2Proof.Machine

/-- `RESET` (R200): all seven registers at their values of R36; never refused, in any state (R202). -/
def doReset (s : State) : State :=
  { s.answer .reset .done with
    crc := INIT
    pkBuf := 0#24
    pkCnt := 0#2
    encSr := 0#40
    encCnt := 0#3
    decSr := 0#32
    decCnt := 0#3 }

/-- One operation performed (R33): atomic and total. -/
def perform (o : Op) (s : State) : Host.Outcome State Fault Refusal :=
  match o with
  | .reset => .next (doReset s)
  | .crcInit => .next (doCrcInit s)
  | .crcWord w => .next (doCrcWord w s)
  | .crcByte b => .next (doCrcByte b s)
  | .crcFlush => .next (doCrcFlush s)
  | .crcRead => .next (doCrcRead s)
  | .encLoad op arg => .next (doEncLoad op arg s)
  | .encPop => .next (doEncPop s)
  | .decByte b => doDecByte b s
  | .decSync => .next (doDecSync s)

/-- A sequence of operations, ended at the first one that is refused (R81: "refused at the first refused operation of
its expansion, leaving the state as the operations before it left it"; the refused one leaves its reason in the
transcript). -/
def performAll : List Op → State → Host.Outcome State Fault Refusal
  | [], s => .next s
  | o :: os, s =>
    match perform o s with
    | .next t => if t.lastRefused then .next t else performAll os t
    | .fault r => .fault r
    | .refused r => .refused r

end Sys2Proof.Machine
end

