-- ==== Sys2Proof/Machine/Pseudo.lean ====
section
/-! DEFINITION. The four pseudo-operations (30_encoding.md rule R81): "each is exactly its expansion". -/

namespace Sys2Proof.Machine

/-- `checksum_words([w0, ..., wn-1])` (R81, R103). -/
def checksumWords (ws : List Word) : List Op :=
  .crcInit :: ws.map .crcWord ++ [.crcRead]

/-- `checksum_bytes([b0, ..., bm-1])` (R81, R104). -/
def checksumBytes (bs : List Byte) : List Op :=
  .crcInit :: bs.map .crcByte ++ [.crcFlush, .crcRead]

/-- `send(op, arg)` (R81, R135). -/
def send (op : Byte) (arg : Word) : List Op :=
  [.encLoad op arg, .encPop, .encPop, .encPop, .encPop, .encPop]

/-- `receive([B0, ..., Bk-1])` (R81, R144). -/
def receive (bs : List Byte) : List Op := bs.map .decByte

end Sys2Proof.Machine
end

