-- ==== Sys2Proof/Machine/Step.lean ====
section
/-! DEFINITION. One step: the next operation the environment issues, performed whole (R9, R11, R60). -/

namespace Sys2Proof.Machine

/-- One step. With no operation pending the block holds its state: the operations are "the only ways its state is
read or written" (R33). DESIGN CHOICE, log entry 2; safe. -/
def step (s : State) : Host.Outcome State Fault Refusal :=
  match s.pending with
  | [] => .next s
  | o :: rest => perform o { s with pending := rest }

/-- `s` about to run the wire instruction whose frame value is `w`, numbered as spec/opcode_table.json numbers it: its
first four bytes are received, and the `DEC_BYTE` of its fifth is the next operation. DESIGN CHOICE, log entry 6; safe:
it stands for a load from outside, since the block fetches nothing (R30). -/
def State.withFetchWord (s : State) (nbits w : Nat) : State := s.placeFrame (tableFrameValue nbits w)

end Sys2Proof.Machine
end

