-- ==== Sys2Proof/Machine/Transport.lean ====
section
/-! DEFINITION. The transport and the response matcher of the environment, transcribed from 44_protocol_context.md (rules
R151 to R154): software, out of scope as hardware (00_scope.md rule R4); no definition of the block refers to this file.
The device is an input: the characters that arrive and when. Times are milliseconds from an arbitrary origin. -/

namespace Sys2Proof.Machine

/-- A text (R152); the character set is not in the spec (91_not_in_source.md N16). -/
abbrev Line := List Char

/-- The values that the spec names and does not give (93_implementation_defined.md U14: "parameter if the environment is
modelled"). -/
structure EnvParams where
  /-- the per-call read timeout (R151; 91_not_in_source.md N18) -/
  readTimeoutMs : Nat
  /-- the settle delay after the handshake (R156; 91_not_in_source.md N17) -/
  settleDelayMs : Nat
deriving DecidableEq, Repr

/-- A character from the device and the time it arrives. -/
structure Arrival where
  atMs : Nat
  char : Char
deriving DecidableEq, Repr

/-- The receiving side of the transport (R151): the clock, the input buffer, and what the device is yet to send. The
characters arrive in the order of the list, none before the one ahead of it. -/
structure Transport where
  nowMs : Nat
  unread : List Char
  incoming : List Arrival
deriving DecidableEq, Repr

/-- The device will send these characters too. -/
def Transport.hear (t : Transport) (input : List Arrival) : Transport := { t with incoming := t.incoming ++ input }

/-- Time passes; what arrives meanwhile is read later. -/
def Transport.pause (t : Transport) (ms : Nat) : Transport := { t with nowMs := t.nowMs + ms }

/-- The "discard-input-buffer operation" (R151): everything that has arrived and is unread is lost. -/
def Transport.discardInput (t : Transport) : Transport :=
  { t with unread := [], incoming := t.incoming.dropWhile (fun a => decide (a.atMs ≤ t.nowMs)) }

/-- What one `read_line(timeout)` of the transport returns (R151): "a complete line terminated by a newline", the newline
included, or a timeout signal. -/
inductive ReadResult where
  | line (l : Line)
  | noLine
deriving DecidableEq, Repr

/-- The first complete line of a text, its newline included, and what follows it; none while there is no newline:
"partial lines are never returned" (R151). -/
def takeLine : List Char → Option (Line × List Char)
  | [] => none
  | c :: rest =>
    if c = '\n' then some ([c], rest)
    else
      match takeLine rest with
      | some (l, after) => some (c :: l, after)
      | none => none

/-- A read of the transport: what it returned and the transport after it. -/
structure ReadEvent where
  result : ReadResult
  after : Transport
deriving DecidableEq, Repr

/-- Receive until the buffer holds a complete line or the deadline of the read has come (R151). -/
def readUntil (deadlineMs : Nat) (nowMs : Nat) (unread : List Char) : List Arrival → ReadEvent
  | [] =>
    match takeLine unread with
    | some (l, rest) => ⟨.line l, ⟨nowMs, rest, []⟩⟩
    | none => ⟨.noLine, ⟨deadlineMs, unread, []⟩⟩
  | a :: incoming =>
    match takeLine unread with
    | some (l, rest) => ⟨.line l, ⟨nowMs, rest, a :: incoming⟩⟩
    | none =>
      if a.atMs ≤ deadlineMs then readUntil deadlineMs (max nowMs a.atMs) (unread ++ [a.char]) incoming
      else ⟨.noLine, ⟨deadlineMs, unread, a :: incoming⟩⟩

/-- `read_line(timeout)` (R151). -/
def Transport.readLine (t : Transport) (timeoutMs : Nat) : ReadEvent :=
  readUntil (t.nowMs + timeoutMs) t.nowMs t.unread t.incoming

/-- The next `n` reads, each with the per-call timeout. DESIGN CHOICE, log entry 8; unsafe for claims about the environment
only: a read without a line takes at least one millisecond, so that a wait whose reads have no timeout ends too. -/
def Transport.nextReads (readTimeoutMs : Nat) : Nat → Transport → List ReadEvent
  | 0, _ => []
  | n + 1, t =>
    t.readLine (max 1 readTimeoutMs) :: Transport.nextReads readTimeoutMs n (t.readLine (max 1 readTimeoutMs)).after

/-- `ResponseMatch` (R152): no partial-match state. -/
inductive ResponseMatch where
  | matched
  | timedOut
deriving DecidableEq, Repr

/-- The success token (R10, R152). -/
def successToken : Line := ['O', 'K', '!']

/-- The ready pattern (R10, R152). -/
def readyPattern : Line :=
  ['B', 'o', 'o', 't', 'l', 'o', 'a', 'd', 'e', 'r', ' ', 'r', 'e', 'a', 'd', 'y']

/-- "default timeout 5000 ms" (R153). -/
def defaultTimeoutMs : Nat := 5000

/-- "a line containing `pattern`" (R153): substring containment. DESIGN CHOICE, log entry 11; unsafe for claims about the
environment only: the spec leaves the case of the match "unspecified"; here the characters must be equal, case included. -/
def containsPattern (pattern : Line) : Line → Bool
  | [] => pattern.isEmpty
  | c :: rest => pattern.isPrefixOf (c :: rest) || containsPattern pattern rest

/-- The lines among reads, in order: what the sink is to see (R154). -/
def linesOf (reads : List ReadEvent) : List Line :=
  reads.filterMap fun e =>
    match e.result with
    | .line l => some l
    | .noLine => none

/-- How a wait ended: the match, the lines surfaced to the observability sink (R154), and the transport after it. -/
structure WaitResult where
  outcome : ResponseMatch
  lines : List Line
  after : Transport
deriving DecidableEq, Repr

/-- `await_response` (R153) over the reads of the transport `t` in order. `TimedOut` needs a time strictly greater than
the deadline (90_conflicts.md C5); a read that times out is "no line yet, keep waiting"; every line received is surfaced
(R154), a late one too, which does not match (DESIGN CHOICE, log entry 8; unsafe for claims about the environment only). -/
def awaitReads (pattern : Line) (deadlineMs : Nat) (t : Transport) : List ReadEvent → WaitResult
  | [] => ⟨.timedOut, [], t⟩
  | e :: rest =>
    if deadlineMs < e.after.nowMs then ⟨.timedOut, linesOf [e], e.after⟩
    else
      match e.result with
      | .noLine => awaitReads pattern deadlineMs e.after rest
      | .line l =>
        if containsPattern pattern l then ⟨.matched, [l], e.after⟩
        else
          let r := awaitReads pattern deadlineMs e.after rest
          ⟨r.outcome, l :: r.lines, r.after⟩

/-- `await_response(transport, pattern, timeout_ms)` (R153). The reads offered are enough for any wait: each takes a
millisecond or a character. -/
def Transport.await (t : Transport) (p : EnvParams) (pattern : Line) (timeoutMs : Nat) : WaitResult :=
  awaitReads pattern (t.nowMs + timeoutMs) t
    (t.nextReads p.readTimeoutMs (timeoutMs + 1 + t.unread.length + t.incoming.length))

end Sys2Proof.Machine
end

