-- ==== Sys2Proof/Machine/Environment.lean ====
section
/-! DEFINITION. The environment of the block, transcribed from 44_protocol_context.md. It is software, out of scope as
hardware (00_scope.md rule R4): no definition of the block refers to this file. It is the agent that chooses which
operations the block performs: chunking (R159), the update orchestrator with its transfer session and echo probe (R155 to
R158, R160, R161), the self-test duty (R107, R204), the order of its flow (R208), the errors (R162) and the exit code
(R163), over the transport and the response matcher of Machine/Transport.lean (R151 to R154). -/

namespace Sys2Proof.Machine

/-- `chunk_size=1024` (R158). -/
def chunkSize : Nat := 1024

/-- "chunk count = ceil(size/1024)" (R156, R159). -/
def chunkCount (size : Nat) : Nat := (size + (chunkSize - 1)) / chunkSize

/-- The next `min(1024, remaining)` bytes after `sent` of them (R156). -/
def nextChunk (image : List Byte) (sent : Nat) : List Byte := (image.drop sent).take chunkSize

/-- The chunks of an image in the order they are streamed (R159). -/
def chunks (image : List Byte) : List (List Byte) :=
  (List.range (chunkCount image.length)).map (fun i => nextChunk image (chunkSize * i))

/-- The states of the orchestrator (R155); `done` and `failed` are terminal. -/
inductive Stage where
  | init
  | ready
  | sizeSet
  | updating
  | streaming
  | verifying
  | done
  | failed
deriving DecidableEq, Repr

/-- `TransferSession` (R158). -/
structure TransferSession where
  totalSize : Nat
  bytesSent : Nat
  chunkIndex : Nat
deriving DecidableEq, Repr

/-- The errors a run ends with (R162). `TransportReadTimeout` "is swallowed" (`ReadResult.noLine`) and is none. -/
inductive EnvError where
  | selfTestFailure
  | handshakeFailure
  | probeFailure
  | stageTimeout (at_ : Stage)
  | checksumMismatch
  /-- DESIGN CHOICE, log entry 8; unsafe for claims about the environment only: `CRC_FLUSH` was refused, so there is
  no checksum to send; the spec does not say what the environment then does. -/
  | checksumRefused
deriving DecidableEq, Repr

/-- One update run: the orchestrator, the block and the transport it drives, what it has handed to `write`, to the
observability sink and to the progress report. -/
structure Orchestrator where
  params : EnvParams
  stage : Stage
  image : List Byte
  session : Option TransferSession
  block : State
  transport : Transport
  written : List Byte
  sink : List Line
  /-- R156 "report progress", one report per acknowledged chunk. DESIGN CHOICE, log entry 8; unsafe for claims about the
  environment only: the spec does not say what is reported; here the session as advanced. -/
  progress : List TransferSession
  error : Option EnvError
deriving DecidableEq, Repr

/-- The frame-byte-out stream (R51): the bytes the `ENC_POP` operations of a transcript emitted. -/
def emittedBytes (tr : List (Op × OpResult)) : List Byte :=
  tr.filterMap fun e =>
    match e with
    | (.encPop, .byte b) => some b
    | _ => none

/-- The value of the last `CRC_READ` of a transcript that ends with one. -/
def lastWord (tr : List (Op × OpResult)) : Option Word :=
  match tr.getLast? with
  | some (.crcRead, .word w) => some w
  | _ => none

/-- The state after a sequence of operations; operations never stop the block (R33, R180). -/
def blockAfter (ops : List Op) (s : State) : State :=
  match performAll ops s with
  | .next t => t
  | .fault _ => s
  | .refused _ => s

/-- Issue operations to the block and hand the bytes it emits to `write` (R135, R151). DESIGN CHOICE, log entry 10; unsafe
for claims about the environment only: where an operation is refused (a `send` to a block whose Encoder is busy), the spec
does not say what the environment does (R186: it may repeat it, or go on); here it goes on, with the bytes emitted by
then, as if all had been sent. -/
def Orchestrator.issue (o : Orchestrator) (ops : List Op) : Orchestrator :=
  let t := blockAfter ops o.block
  { o with
    block := t
    written := o.written ++ emittedBytes (t.transcript.drop o.block.transcript.length) }

/-- The device will send these characters (an input of the run). -/
def Orchestrator.hear (o : Orchestrator) (input : List Arrival) : Orchestrator :=
  { o with transport := o.transport.hear input }

/-- Hand raw bytes to `write`, past the block (R136, R160). -/
def Orchestrator.writeRaw (o : Orchestrator) (bytes : List Byte) : Orchestrator :=
  { o with written := o.written ++ bytes }

/-- The terminal failure of a run (R155, R162); the session is discarded (R158). -/
def Orchestrator.fail (o : Orchestrator) (e : EnvError) : Orchestrator :=
  { o with stage := .failed, session := none, error := some e }

/-- What a wait leaves: the transport after it, and its lines surfaced (R154). -/
def Orchestrator.afterWait (o : Orchestrator) (r : WaitResult) : Orchestrator :=
  { o with transport := r.after, sink := o.sink ++ r.lines }

/-- Wait for a line (R153), surface what arrives (R154), and go on with `onMatch` or fail with `e`. -/
def Orchestrator.await (o : Orchestrator) (pattern : Line) (timeoutMs : Nat)
    (onMatch : Orchestrator → Orchestrator) (e : EnvError) : Orchestrator :=
  match (o.transport.await o.params pattern timeoutMs).outcome with
  | .matched => onMatch (o.afterWait (o.transport.await o.params pattern timeoutMs))
  | .timedOut => (o.afterWait (o.transport.await o.params pattern timeoutMs)).fail e

/-- The argument of `SETSIZE`: the length of the image in bytes (R122, R157). DESIGN CHOICE, log entry 8; unsafe for claims
about the environment only: modulo 2^32, where the spec gives no limit on the length (91_not_in_source.md N15). -/
def imageLength (image : List Byte) : Word := BitVec.ofNat 32 image.length

/-- The chunk just acknowledged is counted (R156: "advance bytes_sent and chunk_index"). -/
def TransferSession.advance (t : TransferSession) (n : Nat) : TransferSession :=
  { t with bytesSent := t.bytesSent + n, chunkIndex := t.chunkIndex + 1 }

/-- A chunk has been acknowledged (R156): "advance bytes_sent and chunk_index; report progress". -/
def Orchestrator.chunkDone (o : Orchestrator) (t : TransferSession) : Orchestrator :=
  { o with session := some t, progress := o.progress ++ [t] }

/-- Streaming (R156): a chunk while bytes remain, then the wait for the post-transfer acknowledgement. -/
def Orchestrator.stream (o : Orchestrator) (t : TransferSession) : Orchestrator :=
  if t.bytesSent < t.totalSize then
    (o.writeRaw (nextChunk o.image t.bytesSent)).await successToken 10000
      (fun p => p.chunkDone (t.advance (nextChunk o.image t.bytesSent).length)) (.stageTimeout .streaming)
  else
    o.await successToken 2000 (fun p => { p with stage := .verifying }) (.stageTimeout .streaming)

/-- Verifying (R156, R157): `checksum_bytes(image)`, then `CHECK(checksum)`. -/
def Orchestrator.verify (o : Orchestrator) : Orchestrator :=
  let p := o.issue (checksumBytes o.image)
  match lastWord p.block.transcript with
  | none => p.fail .checksumRefused
  | some w =>
    (p.issue (send 0x04#8 w)).await successToken defaultTimeoutMs
      (fun q => { q with stage := .done, session := none }) .checksumMismatch

/-- The transition out of the present stage (R156, R157); "Updating to Streaming" is immediate and waits for nothing,
the handshake is followed by the settle delay. -/
def Orchestrator.advance (o : Orchestrator) : Orchestrator :=
  match o.stage with
  | .init =>
    (o.issue (send 0x01#8 0#32)).await readyPattern defaultTimeoutMs
      (fun p => { p with stage := .ready, transport := p.transport.pause p.params.settleDelayMs }) .handshakeFailure
  | .ready =>
    (o.issue (send 0x02#8 (imageLength o.image))).await successToken defaultTimeoutMs
      (fun p => { p with stage := .sizeSet }) (.stageTimeout .ready)
  | .sizeSet =>
    (o.issue (send 0x03#8 0#32)).await successToken 15000
      (fun p => { p with stage := .updating, session := some ⟨p.image.length, 0, 0⟩ }) (.stageTimeout .sizeSet)
  | .updating => { o with stage := .streaming }
  | .streaming =>
    match o.session with
    | some t => o.stream t
    | none => o
  | .verifying => o.verify
  | .done => o
  | .failed => o

/-- One attempt of the echo probe (R156): `ECHO(0)`, then the wait for the success token. -/
def Orchestrator.probeOnce (o : Orchestrator) : Orchestrator × ResponseMatch :=
  let p := o.issue (send 0x01#8 0#32)
  let r := p.transport.await p.params successToken defaultTimeoutMs
  (p.afterWait r, r.outcome)

/-- The echo probe (R156): "up to 2 attempts"; "after 2 failed attempts → report not-ready, do not transition"; then the
"run aborts with failure exit code" (R162). `second` is what the device sends from the second attempt on. -/
def Orchestrator.probe (o : Orchestrator) (second : List Arrival) : Orchestrator :=
  match o.probeOnce.2 with
  | .matched => o.probeOnce.1
  | .timedOut =>
    match (o.probeOnce.1.hear second).probeOnce.2 with
    | .matched => (o.probeOnce.1.hear second).probeOnce.1
    | .timedOut => { (o.probeOnce.1.hear second).probeOnce.1 with error := some .probeFailure }

/-- What the caller of the orchestrator asks for next, with what the device sends from then on. -/
inductive Request where
  /-- the transition out of the present stage -/
  | proceed (input : List Arrival)
  /-- the "explicit echo probe" of stage `ready` (R156), with the input of each attempt -/
  | probe (first second : List Arrival)
deriving DecidableEq, Repr

/-- One request. A run that has ended with an error does nothing more (R161, R162: "All protocol failures are terminal for
the current run"), and neither does one that is done (R155); a probe is a transition of stage `ready` only (R156). -/
def Orchestrator.act (o : Orchestrator) (r : Request) : Orchestrator :=
  if o.error.isSome || o.stage == .done || o.stage == .failed then o
  else
    match r with
    | .proceed input => (o.hear input).advance
    | .probe first second => if o.stage = .ready then (o.hear first).probe second else o

/-- The four vectors of the self-test (R92, R107, R204). -/
def selfTestVectors : List (List Word × Word) :=
  [ ([0x12345678#32], 0xDF8A8A2B#32),
    ([0x8E09BAF6#32], 0x5C00CC44#32),
    ([0x12345678#32, 0x8E09BAF6#32], 0x04F1F147#32),
    ([0x8E09BAF6#32, 0x12345678#32], 0x90B2EE2D#32) ]

/-- The self-test (R107, R204): each vector through the block's own engine; the block after them and whether all agree. -/
def selfTest (s : State) : State × Bool :=
  selfTestVectors.foldl
    (fun r v =>
      let t := blockAfter (checksumWords v.1) r.1
      (t, r.2 && lastWord t.transcript == some v.2))
    (s, true)

/-- The start of a run (R157, first row; R208): the self-test, fatal if it fails, before anything is sent; then the input
buffer is discarded (R151, R208), before the handshake. -/
def Orchestrator.start (params : EnvParams) (transport : Transport) (image : List Byte) (block : State) : Orchestrator :=
  let r := selfTest block
  let o : Orchestrator :=
    { params := params, stage := .init, image := image, session := none, block := r.1, transport := transport
      written := [], sink := [], progress := [], error := none }
  if r.2 then { o with transport := transport.discardInput } else o.fail .selfTestFailure

/-- A run: the requests in order (R161: strictly sequential). -/
def Orchestrator.run (o : Orchestrator) (requests : List Request) : Orchestrator :=
  requests.foldl Orchestrator.act o

/-- The exit code of the shell (R163). -/
def Orchestrator.exitCode (o : Orchestrator) : Nat :=
  match o.stage with
  | .done => 0
  | _ => 1

end Sys2Proof.Machine
end

