-- ==== Sys2Proof/Safety.lean ====
section
/-! DEFINITION. What counts as a safe run, in the terms claims use: no operation refused (60_exceptions.md rule R193),
the counters in their ranges (10_state.md rule R28), and each unit's registers agreeing with what has crossed the
interface since the unit was last initialised: an abstract reading of the transcript that knows no register
(40_checksum_engine.md rules R92 to R104, 42_frame_encoder.md rule R134, 43_frame_decoder.md rule R144). -/

namespace Sys2Proof.Machine

/-- R193: no operation of the transcript was refused. -/
def noRefusal (tr : List (Op × OpResult)) : Bool :=
  tr.all fun e =>
    match e with
    | (_, .refused _) => false
    | _ => true

/-- R28: `0 <= ENC_CNT <= 5`, `0 <= DEC_CNT <= 4`; `0 <= PK_CNT <= 3` is its width. -/
abbrev State.countsLegal (s : State) : Prop := s.encCnt ≤ 5#3 ∧ s.decCnt ≤ 4#3

/-- The seven registers of two states agree (R20). -/
abbrev sameRegisters (s t : State) : Prop :=
  s.crc = t.crc ∧ s.pkBuf = t.pkBuf ∧ s.pkCnt = t.pkCnt ∧ s.encSr = t.encSr ∧ s.encCnt = t.encCnt ∧
    s.decSr = t.decSr ∧ s.decCnt = t.decCnt

/-- The three units of the block (R20). -/
inductive BlockUnit where
  | engine
  | encoder
  | decoder
deriving DecidableEq, Repr

/-- The unit an operation touches (R37); `RESET` touches all three. -/
def Op.unit : Op → Option BlockUnit
  | .reset => none
  | .crcInit => some .engine
  | .crcWord _ => some .engine
  | .crcByte _ => some .engine
  | .crcFlush => some .engine
  | .crcRead => some .engine
  | .encLoad _ _ => some .encoder
  | .encPop => some .encoder
  | .decByte _ => some .decoder
  | .decSync => some .decoder

/-- The results that the operations after a transcript's first `n` were answered with. -/
def resultsAfter (n : Nat) (tr : List (Op × OpResult)) : List OpResult := (tr.drop n).map Prod.snd

/-- The frames delivered by the operations after a transcript's first `n`. -/
def framesAfter (n : Nat) (tr : List (Op × OpResult)) : List Frame :=
  (resultsAfter n tr).filterMap fun r =>
    match r with
    | .frame f => some f
    | _ => none

/-- The image as the engine has been given it since the last `RESET` or `CRC_INIT`: the words absorbed and the bytes
that make no word yet. -/
structure EngineHistory where
  words : List Word
  residue : List Byte
deriving DecidableEq, Repr

/-- One operation's part in the image (R94 to R100). -/
def engineEvent (c : Config) (h : EngineHistory) (e : Op × OpResult) : EngineHistory :=
  match e with
  | (_, .refused _) => h
  | (.reset, _) => ⟨[], []⟩
  | (.crcInit, _) => ⟨[], []⟩
  | (.crcWord w, _) => ⟨h.words ++ [w], h.residue⟩
  | (.crcByte b, _) =>
    ⟨h.words ++ (wordsOfBytes c.wordOrder (h.residue ++ [b])).1, (wordsOfBytes c.wordOrder (h.residue ++ [b])).2⟩
  | (.crcFlush, _) =>
    if c.tailPolicy = .zeroPad ∧ h.residue ≠ [] then ⟨h.words ++ [padTail c.wordOrder h.residue], []⟩
    else ⟨h.words, []⟩
  | _ => h

/-- The image given so far. -/
def engineHistory (c : Config) (tr : List (Op × OpResult)) : EngineHistory := tr.foldl (engineEvent c) ⟨[], []⟩

/-- The engine holds the checksum of the words given and the bytes left over (R92, R22, R23). -/
def State.engineAgrees (s : State) : Prop :=
  s.crc = computeChecksum (engineHistory s.config s.transcript).words INIT POLY ∧
    s.pkCnt.toNat = (engineHistory s.config s.transcript).residue.length ∧
    bufBytes s.pkBuf s.pkCnt.toNat = (engineHistory s.config s.transcript).residue

/-- The commands accepted and the bytes emitted since the last `RESET`. -/
structure EncoderHistory where
  loaded : List (Byte × Word)
  emitted : List Byte
deriving DecidableEq, Repr

/-- One operation's part in the frame-byte-out stream (R132, R133, R202). -/
def encoderEvent (h : EncoderHistory) (e : Op × OpResult) : EncoderHistory :=
  match e with
  | (.reset, _) => ⟨[], []⟩
  | (.encLoad op arg, .done) => ⟨h.loaded ++ [(op, arg)], h.emitted⟩
  | (.encPop, .byte b) => ⟨h.loaded, h.emitted ++ [b]⟩
  | _ => h

/-- The commands accepted and the bytes emitted so far. -/
def encoderHistory (tr : List (Op × OpResult)) : EncoderHistory := tr.foldl encoderEvent ⟨[], []⟩

/-- The bytes still to emit: the top `n` bytes of the shift register, the next first (R24). -/
def encRemaining : Nat → FrameValue → List Byte
  | 0, _ => []
  | n + 1, sr => encTopByte sr :: encRemaining n (encShift sr)

/-- R134: what has been emitted, followed by what is still to emit, is the frames of the accepted commands in order. -/
def State.encoderAgrees (s : State) : Prop :=
  (encoderHistory s.transcript).emitted ++ encRemaining s.encCnt.toNat s.encSr =
      (encoderHistory s.transcript).loaded.flatMap (fun c => frameBytes c.1 c.2) ∧
    (∀ c ∈ (encoderHistory s.transcript).loaded, isCommand c.1 = true) ∧ s.encCnt ≤ 5#3

/-- The bytes received and the frames delivered since the last `RESET` or `DEC_SYNC`. -/
structure DecoderHistory where
  received : List Byte
  delivered : List Frame
deriving DecidableEq, Repr

/-- One operation's part in the frame-byte-in stream (R142, R143). -/
def decoderEvent (h : DecoderHistory) (e : Op × OpResult) : DecoderHistory :=
  match e with
  | (.reset, _) => ⟨[], []⟩
  | (.decSync, _) => ⟨[], []⟩
  | (.decByte b, .frame f) => ⟨h.received ++ [b], h.delivered ++ [f]⟩
  | (.decByte b, _) => ⟨h.received ++ [b], h.delivered⟩
  | _ => h

/-- The bytes received and the frames delivered so far. -/
def decoderHistory (tr : List (Op × OpResult)) : DecoderHistory := tr.foldl decoderEvent ⟨[], []⟩

/-- The bytes of the frame being received: the low `n` bytes of the register, the oldest first (R26). -/
def decHeld (n : Nat) (sr : Word) : List Byte := (List.range n).map (fun i => wordByte sr (n - 1 - i))

/-- R141 c, R144: the bytes received are those of the frames delivered, in order, followed by the bytes held; every
frame has the class of its opcode. -/
def State.decoderAgrees (s : State) : Prop :=
  (decoderHistory s.transcript).received =
      (decoderHistory s.transcript).delivered.flatMap (fun f => frameBytes f.op f.arg) ++
        decHeld s.decCnt.toNat s.decSr ∧
    (∀ f ∈ (decoderHistory s.transcript).delivered, f.cls = classOf f.op) ∧ s.decCnt ≤ 4#3

/-- Two states agree on everything an operation reads (93_implementation_defined.md U9): all but the bits of `PK_BUF` at or
above `8*PK_CNT`, of `ENC_SR` below its top `8*ENC_CNT` bits, of `DEC_SR` above its low `8*DEC_CNT` bits. -/
def sameReadable (s t : State) : Prop :=
  s.crc = t.crc ∧ s.pkCnt = t.pkCnt ∧ bufBytes s.pkBuf s.pkCnt.toNat = bufBytes t.pkBuf t.pkCnt.toNat ∧
    s.encCnt = t.encCnt ∧ encRemaining s.encCnt.toNat s.encSr = encRemaining t.encCnt.toNat t.encSr ∧
    s.decCnt = t.decCnt ∧ decHeld s.decCnt.toNat s.decSr = decHeld t.decCnt.toNat t.decSr ∧
    s.config = t.config ∧ s.pending = t.pending ∧ s.transcript = t.transcript

end Sys2Proof.Machine
end

