-- ==== Sys2Proof/Certificates/Slice0/Obligations.lean ====
section
/-! DEFINITION. The statements for the provers, each about every state, operand and configuration it names. The rules
R<n> are those of spec/. Where a statement says what `PK_BUF`, `ENC_SR` or `DEC_SR` holds beyond the bits an operation reads
(93_implementation_defined.md U9), it says only what the cited rule itself fixes. `transcript` is the model's record of the
results that the rules give the operations (log entry 3), `pending` what the environment will issue (log entry 2). -/

open Sys2Proof Sys2Proof.Machine

/-! ## Reset -/

/-- R36, R200: `RESET` sets all seven registers from every state, leaves the status values false, and the initial
state of the model is the state it leaves. -/
def Obligations.ResetSetsAllSevenRegisters : Prop :=
  ∀ s : State, ∃ t : State, perform .reset s = .next t ∧
    t.crc = 0xFFFFFFFF#32 ∧ t.pkBuf = 0#24 ∧ t.pkCnt = 0#2 ∧ t.encSr = 0#40 ∧ t.encCnt = 0#3 ∧
    t.decSr = 0#32 ∧ t.decCnt = 0#3 ∧
    t.crcResidue = false ∧ t.encBusy = false ∧ t.decMidframe = false ∧
    sameRegisters State.reset t ∧
    t.config = s.config ∧ t.pending = s.pending ∧ t.transcript = s.transcript ++ [(.reset, .done)]

/-- Every agreement of Safety.lean holds at the initial state, whatever the configuration and whatever the
environment is about to issue. -/
def Obligations.InitialStateMeetsEveryInvariant : Prop :=
  ∀ (c : Config) (ops : List Op),
    let s : State := { State.reset with config := c, pending := ops }
    s.countsLegal ∧ s.engineAgrees ∧ s.encoderAgrees ∧ s.decoderAgrees

/-! ## The algorithm -/

/-- R90: bit `j` of `crc_shift1(c, P)` is bit `j-1` of `c` (0 for `j = 0`), XORed with bit `j` of `P` when the top
bit of `c` was 1. -/
def Obligations.CrcShiftActsBitwise : Prop :=
  ∀ (c P : Word) (j : Nat), j < 32 →
    (crcShift1 c P).getLsbD j =
      ((decide (0 < j) && c.getLsbD (j - 1)) ^^ (c.getLsbD 31 && P.getLsbD j))

/-- R91: `crc_word` is exactly 32 applications of `crc_shift1` to `c ^ w`, and a word equal to the register clears it. -/
def Obligations.CrcWordIsThirtyTwoShifts : Prop :=
  ∀ c w P : Word,
    crcWord c w P = (fun x => crcShift1 x P)^[32] (c ^^^ w) ∧ crcWord c c P = 0#32

/-- R92: the fold, for any initial value and polynomial, and the source's four vectors. -/
def Obligations.ChecksumCarriesAcrossWords : Prop :=
  (∀ I P : Word, computeChecksum [] I P = I) ∧
  (∀ (ws : List Word) (w I P : Word),
    computeChecksum (ws ++ [w]) I P = crcWord (computeChecksum ws I P) w P) ∧
  computeChecksum [0x12345678#32] INIT POLY = 0xDF8A8A2B#32 ∧
  computeChecksum [0x8E09BAF6#32] INIT POLY = 0x5C00CC44#32 ∧
  computeChecksum [0x12345678#32, 0x8E09BAF6#32] INIT POLY = 0x04F1F147#32 ∧
  computeChecksum [0x8E09BAF6#32, 0x12345678#32] INIT POLY = 0x90B2EE2D#32

/-- R105 (a) to (d): `crc_word` depends on `c ^ w` only, is linear over XOR, checksums of equally long sequences XOR
word by word, and a word at a time equals a byte at a time, most significant byte first. -/
def Obligations.EngineObeysTheXorLaws : Prop :=
  ∀ P : Word,
    (∀ c w, crcWord c w P = crcWord (c ^^^ w) 0#32 P) ∧
    (∀ a b, crcShift1 (a ^^^ b) P = crcShift1 a P ^^^ crcShift1 b P) ∧
    (∀ a b, crcWord (a ^^^ b) 0#32 P = crcWord a 0#32 P ^^^ crcWord b 0#32 P) ∧
    crcWord 0#32 0#32 P = 0#32 ∧
    (∀ c w, crcWord c w P = crcWord c 0#32 P ^^^ crcWord w 0#32 P) ∧
    (∀ (u v : List Word) (I : Word), u.length = v.length →
      computeChecksum u I P ^^^ computeChecksum v I P =
        computeChecksum (List.zipWith (· ^^^ ·) u v) 0#32 P) ∧
    (∀ c w, crcWord c w P =
      crcByteSerial (crcByteSerial (crcByteSerial (crcByteSerial c (wordByte w 3) P) (wordByte w 2) P)
        (wordByte w 1) P) (wordByte w 0) P)

/-- R105, its consequence: under `WORD_ORDER = big` the checksum of an image of `4n` bytes is the byte-serial CRC of
the image in stream order; under `little`, of the image with the four bytes of each word reversed. -/
def Obligations.WholeImageChecksumIsByteSerial : Prop :=
  ∀ (I P : Word) (bs : List Byte), bs.length % 4 = 0 →
    computeChecksum (wordsOfBytes .big bs).1 I P = bs.foldl (fun c b => crcByteSerial c b P) I ∧
    computeChecksum (wordsOfBytes .little bs).1 I P =
      ((wordsOfBytes .big bs).1.flatMap (fun w => [wordByte w 0, wordByte w 1, wordByte w 2, wordByte w 3])).foldl
        (fun c b => crcByteSerial c b P) I

/-- R102: for an odd polynomial absorbing a word is a bijection of the word and of the register, any value can be
reached with one `CRC_WORD` when no residue is held, and sequences that differ in exactly one position have different
checksums; two that differ in two positions can collide. -/
def Obligations.AbsorbingAWordIsABijection : Prop :=
  (∀ P : Word, P.getLsbD 0 = true →
    (∀ c, Function.Bijective (fun w => crcWord c w P)) ∧
    (∀ w, Function.Bijective (fun c => crcWord c w P)) ∧
    (∀ (us vs : List Word) (w₁ w₂ I : Word), w₁ ≠ w₂ →
      computeChecksum (us ++ w₁ :: vs) I P ≠ computeChecksum (us ++ w₂ :: vs) I P)) ∧
  (∀ (s : State) (v : Word), s.pkCnt = 0#2 →
    ∃ (w : Word) (t : State), perform (.crcWord w) s = .next t ∧ t.crc = v) ∧
  computeChecksum [0xFFFFFFFF#32, 0x00000000#32] INIT POLY = computeChecksum [0x00000000#32, 0xC704DD7B#32] INIT POLY

/-! ## Words from image bytes -/

/-- R53: the first image byte is the least significant under `little` and the most significant under `big`; the default
is `little`, and no step changes the order. -/
def Obligations.WordOrderPlacesImageBytes : Prop :=
  (∀ b0 b1 b2 b3 : Byte,
    (wordByte (assemble .little b0 b1 b2 b3) 0 = b0 ∧ wordByte (assemble .little b0 b1 b2 b3) 1 = b1 ∧
      wordByte (assemble .little b0 b1 b2 b3) 2 = b2 ∧ wordByte (assemble .little b0 b1 b2 b3) 3 = b3) ∧
    (wordByte (assemble .big b0 b1 b2 b3) 3 = b0 ∧ wordByte (assemble .big b0 b1 b2 b3) 2 = b1 ∧
      wordByte (assemble .big b0 b1 b2 b3) 1 = b2 ∧ wordByte (assemble .big b0 b1 b2 b3) 0 = b3)) ∧
  State.reset.config.wordOrder = .little ∧
  (∀ s t : State, step s = .next t → t.config.wordOrder = s.config.wordOrder)

/-- R94: `floor(m/4)` words, word `i` made of bytes `4i` to `4i+3`, and the tail of `m mod 4` bytes. -/
def Obligations.WordsOfBytesGroupsByFour : Prop :=
  ∀ (o : WordOrder) (bs : List Byte),
    (wordsOfBytes o bs).1.length = bs.length / 4 ∧
    (∀ i, i < bs.length / 4 →
      (wordsOfBytes o bs).1[i]? =
        some (assemble o (bs.getD (4 * i) 0) (bs.getD (4 * i + 1) 0) (bs.getD (4 * i + 2) 0)
          (bs.getD (4 * i + 3) 0))) ∧
    (wordsOfBytes o bs).2 = bs.drop (4 * (bs.length / 4))

/-- R95: `pad_tail` of a residue is the one word of the residue followed in stream order by zero bytes. -/
def Obligations.PadTailAppendsZeroBytes : Prop :=
  ∀ (o : WordOrder) (r : List Byte), isResidue r = true →
    wordsOfBytes o (r ++ List.replicate (4 - r.length) 0#8) = ([padTail o r], [])

/-! ## Operations of the Checksum Engine -/

/-- R96: `CRC_INIT` in every state. -/
def Obligations.CrcInitStartsANewChecksum : Prop :=
  ∀ s : State, ∃ t : State, perform .crcInit s = .next t ∧
    t.crc = 0xFFFFFFFF#32 ∧ t.pkBuf = 0#24 ∧ t.pkCnt = 0#2 ∧
    t.encSr = s.encSr ∧ t.encCnt = s.encCnt ∧ t.decSr = s.decSr ∧ t.decCnt = s.decCnt ∧
    t.config = s.config ∧ t.pending = s.pending ∧ t.transcript = s.transcript ++ [(.crcInit, .done)]

/-- R97: `CRC_WORD(w)` absorbs the word, or is refused with the registers unchanged while the packer holds bytes. -/
def Obligations.CrcWordAbsorbsOrRefuses : Prop :=
  ∀ (s : State) (w : Word), ∃ t : State, perform (.crcWord w) s = .next t ∧
    t.pkBuf = s.pkBuf ∧ t.pkCnt = s.pkCnt ∧
    t.encSr = s.encSr ∧ t.encCnt = s.encCnt ∧ t.decSr = s.decSr ∧ t.decCnt = s.decCnt ∧
    t.config = s.config ∧ t.pending = s.pending ∧
    (s.pkCnt ≠ 0#2 →
      t.crc = s.crc ∧ t.transcript = s.transcript ++ [(.crcWord w, .refused .wordWhileResidue)]) ∧
    (s.pkCnt = 0#2 →
      t.crc = crcWord s.crc w POLY ∧ t.transcript = s.transcript ++ [(.crcWord w, .done)])

/-- R98: `CRC_BYTE(b)` joins the residue, or completes a word in the order `WORD_ORDER` names. -/
def Obligations.CrcByteFillsThePacker : Prop :=
  ∀ (s : State) (b : Byte), ∃ t : State, perform (.crcByte b) s = .next t ∧
    t.encSr = s.encSr ∧ t.encCnt = s.encCnt ∧ t.decSr = s.decSr ∧ t.decCnt = s.decCnt ∧
    t.config = s.config ∧ t.pending = s.pending ∧ t.transcript = s.transcript ++ [(.crcByte b, .done)] ∧
    (s.pkCnt ≠ 3#2 →
      t.crc = s.crc ∧ t.pkCnt.toNat = s.pkCnt.toNat + 1 ∧
      bufBytes t.pkBuf t.pkCnt.toNat = bufBytes s.pkBuf s.pkCnt.toNat ++ [b] ∧
      ∀ j, j < 24 → t.pkBuf.getLsbD j =
        if 8 * s.pkCnt.toNat ≤ j ∧ j < 8 * s.pkCnt.toNat + 8 then b.getLsbD (j - 8 * s.pkCnt.toNat)
        else s.pkBuf.getLsbD j) ∧
    (s.pkCnt = 3#2 →
      t.pkBuf = s.pkBuf ∧ t.pkCnt = 0#2 ∧
      t.crc = crcWord s.crc
        (match s.config.wordOrder with
          | .little => b ++ s.pkBuf
          | .big => s.pkBuf.extractLsb' 0 8 ++ s.pkBuf.extractLsb' 8 8 ++ s.pkBuf.extractLsb' 16 8 ++ b) POLY)

/-- R55: with no residue, four image bytes have the effect of the one word they assemble. -/
def Obligations.FourBytesActAsOneWord : Prop :=
  ∀ (s : State) (b0 b1 b2 b3 : Byte), s.pkCnt = 0#2 →
    ∃ t u : State,
      performAll [.crcByte b0, .crcByte b1, .crcByte b2, .crcByte b3] s = .next t ∧
      perform (.crcWord (assemble s.config.wordOrder b0 b1 b2 b3)) s = .next u ∧
      t.crc = u.crc ∧ t.pkCnt = 0#2 ∧ u.pkCnt = 0#2 ∧
      t.encSr = u.encSr ∧ t.encCnt = u.encCnt ∧ t.decSr = u.decSr ∧ t.decCnt = u.decCnt

/-- R100: `CRC_FLUSH` without a residue changes nothing; with one it does what `TAIL_POLICY` says. -/
def Obligations.CrcFlushFollowsTailPolicy : Prop :=
  ∀ s : State, ∃ t : State, perform .crcFlush s = .next t ∧
    t.pkBuf = s.pkBuf ∧
    t.encSr = s.encSr ∧ t.encCnt = s.encCnt ∧ t.decSr = s.decSr ∧ t.decCnt = s.decCnt ∧
    t.config = s.config ∧ t.pending = s.pending ∧
    (s.pkCnt = 0#2 →
      t.crc = s.crc ∧ t.pkCnt = 0#2 ∧ t.transcript = s.transcript ++ [(.crcFlush, .done)]) ∧
    (s.pkCnt ≠ 0#2 →
      match s.config.tailPolicy with
      | .refuse =>
        t.crc = s.crc ∧ t.pkCnt = s.pkCnt ∧
          t.transcript = s.transcript ++ [(.crcFlush, .refused .tailResidue)]
      | .drop => t.crc = s.crc ∧ t.pkCnt = 0#2 ∧ t.transcript = s.transcript ++ [(.crcFlush, .done)]
      | .zeroPad =>
        t.crc = crcWord s.crc (padTail s.config.wordOrder (bufBytes s.pkBuf s.pkCnt.toNat)) POLY ∧
          t.pkCnt = 0#2 ∧ t.transcript = s.transcript ++ [(.crcFlush, .done)])

/-- R101: `CRC_READ` returns the register as it stands in every state and changes none; two in a row agree. -/
def Obligations.CrcReadReturnsTheRegister : Prop :=
  ∀ s : State, ∃ t u : State, perform .crcRead s = .next t ∧ perform .crcRead t = .next u ∧
    sameRegisters s t ∧ sameRegisters s u ∧ t.config = s.config ∧ t.pending = s.pending ∧
    t.transcript = s.transcript ++ [(.crcRead, .word s.crc)] ∧
    u.transcript = s.transcript ++ [(.crcRead, .word s.crc), (.crcRead, .word s.crc)]

/-- R103: `checksum_words(ws)` from every state: never refused, returns the checksum, leaves it in `CRC`. -/
def Obligations.ChecksumWordsReturnsTheChecksum : Prop :=
  ∀ (s : State) (ws : List Word), ∃ t : State, performAll (checksumWords ws) s = .next t ∧
    t.crc = computeChecksum ws INIT POLY ∧ t.pkCnt = 0#2 ∧
    noRefusal (t.transcript.drop s.transcript.length) = true ∧
    t.transcript.length = s.transcript.length + ws.length + 2 ∧
    t.transcript.getLast? = some (.crcRead, .word (computeChecksum ws INIT POLY))

/-- R104: `checksum_bytes(bs)` from every state, for every byte order and tail policy. -/
def Obligations.ChecksumBytesFollowsTailPolicy : Prop :=
  ∀ (s : State) (bs : List Byte), ∃ t : State, performAll (checksumBytes bs) s = .next t ∧
    ((wordsOfBytes s.config.wordOrder bs).2 = [] →
      t.transcript.getLast? =
        some (.crcRead, .word (computeChecksum (wordsOfBytes s.config.wordOrder bs).1 INIT POLY))) ∧
    ((wordsOfBytes s.config.wordOrder bs).2 ≠ [] →
      t.transcript.getLast? =
        match s.config.tailPolicy with
        | .refuse => some (.crcFlush, .refused .tailResidue)
        | .drop =>
          some (.crcRead, .word (computeChecksum (wordsOfBytes s.config.wordOrder bs).1 INIT POLY))
        | .zeroPad =>
          some (.crcRead, .word (computeChecksum
            ((wordsOfBytes s.config.wordOrder bs).1 ++
              [padTail s.config.wordOrder (wordsOfBytes s.config.wordOrder bs).2]) INIT POLY)))

/-! ## The Encoder -/

/-- R130, R131: five bytes, opcode first, argument most significant byte first, defined on the commands only;
different commands have different bytes. -/
def Obligations.EncodeIsFiveBytesAndInjective : Prop :=
  (∀ (op : Byte) (arg : Word), isCommand op = true →
    encodeCommand op arg =
      some [op, arg.extractLsb' 24 8, arg.extractLsb' 16 8, arg.extractLsb' 8 8, arg.extractLsb' 0 8]) ∧
  (∀ (op : Byte) (arg : Word), isCommand op = false → encodeCommand op arg = none) ∧
  (∀ (op op' : Byte) (arg arg' : Word) (bs : List Byte),
    encodeCommand op arg = some bs → encodeCommand op' arg' = some bs → op = op' ∧ arg = arg')

/-- R132, R183: `ENC_LOAD` checks the opcode first, then whether the Encoder is busy, and otherwise loads the frame
value; a refused load changes no register. -/
def Obligations.EncLoadAcceptsCommandsWhenIdle : Prop :=
  ∀ (s : State) (op : Byte) (arg : Word), ∃ t : State, perform (.encLoad op arg) s = .next t ∧
    t.crc = s.crc ∧ t.pkBuf = s.pkBuf ∧ t.pkCnt = s.pkCnt ∧ t.decSr = s.decSr ∧ t.decCnt = s.decCnt ∧
    t.config = s.config ∧ t.pending = s.pending ∧
    (¬ (1 ≤ op.toNat ∧ op.toNat ≤ 5) →
      t.encSr = s.encSr ∧ t.encCnt = s.encCnt ∧
      t.transcript = s.transcript ++ [(.encLoad op arg, .refused .badOpcode)]) ∧
    (1 ≤ op.toNat ∧ op.toNat ≤ 5 → s.encCnt ≠ 0#3 →
      t.encSr = s.encSr ∧ t.encCnt = s.encCnt ∧
      t.transcript = s.transcript ++ [(.encLoad op arg, .refused .encoderBusy)]) ∧
    (1 ≤ op.toNat ∧ op.toNat ≤ 5 → s.encCnt = 0#3 →
      t.encSr = frameValue op arg ∧ t.encCnt = 5#3 ∧
      t.transcript = s.transcript ++ [(.encLoad op arg, .done)])

/-- R133: `ENC_POP` emits the top byte and shifts zeros in, or is refused at count 0. -/
def Obligations.EncPopEmitsTheTopByte : Prop :=
  ∀ s : State, ∃ t : State, perform .encPop s = .next t ∧
    t.crc = s.crc ∧ t.pkBuf = s.pkBuf ∧ t.pkCnt = s.pkCnt ∧ t.decSr = s.decSr ∧ t.decCnt = s.decCnt ∧
    t.config = s.config ∧ t.pending = s.pending ∧
    (s.encCnt = 0#3 →
      t.encSr = s.encSr ∧ t.encCnt = 0#3 ∧
      t.transcript = s.transcript ++ [(.encPop, .refused .encoderIdle)]) ∧
    (s.encCnt ≠ 0#3 →
      t.encSr = s.encSr <<< 8 ∧ t.encCnt.toNat + 1 = s.encCnt.toNat ∧
      t.transcript = s.transcript ++ [(.encPop, .byte (s.encSr.extractLsb' 32 8))])

/-- R135: `send` of a command from an idle Encoder emits its five bytes and leaves the Encoder idle and empty;
otherwise it is refused at its first operation, changes no register and emits nothing. -/
def Obligations.SendEmitsTheFiveBytes : Prop :=
  ∀ (s : State) (op : Byte) (arg : Word),
    ∃ t : State, performAll (send op arg) s = .next t ∧
      (isCommand op = true → s.encCnt = 0#3 →
        resultsAfter s.transcript.length t.transcript =
          [.done, .byte op, .byte (arg.extractLsb' 24 8), .byte (arg.extractLsb' 16 8),
            .byte (arg.extractLsb' 8 8), .byte (arg.extractLsb' 0 8)] ∧
        some (emittedBytes (t.transcript.drop s.transcript.length)) = encodeCommand op arg ∧
        t.encCnt = 0#3 ∧ t.encSr = 0#40) ∧
      ((isCommand op = false ∨ s.encCnt ≠ 0#3) →
        sameRegisters s t ∧ emittedBytes (t.transcript.drop s.transcript.length) = [] ∧
        ∃ reason, t.transcript = s.transcript ++ [(.encLoad op arg, .refused reason)])

/-! ## Classes, frames and the opcode table -/

/-- R127: the class of each opcode value, `is_command`, and `opcode_of` its inverse on the commands. -/
def Obligations.ClassOfPartitionsTheOpcodes : Prop :=
  classOf 0x00#8 = .invalid ∧ classOf 0x01#8 = .echo ∧ classOf 0x02#8 = .setsize ∧
  classOf 0x03#8 = .update ∧ classOf 0x04#8 = .check ∧ classOf 0x05#8 = .jump ∧
  (∀ op : Byte, 6 ≤ op.toNat → classOf op = .reserved) ∧
  (∀ op : Byte, isCommand op = true ↔ 1 ≤ op.toNat ∧ op.toNat ≤ 5) ∧
  (∀ op : Byte, isCommand op = true → opcodeOf (classOf op) = some op)

/-- R74, R82: exactly one row of the opcode table selects a frame value with a named opcode, and none any other. -/
def Obligations.OpcodeRowsAreDisjointAndCoverTheNamed : Prop :=
  ∀ f : FrameValue,
    (opcodeTable.filter (·.selects f)).length = (if (f.extractLsb' 32 8).toNat ≤ 5 then 1 else 0)

/-- R140, R141: `decode` is total on five bytes, undoes `encode` on the commands, is undone by it, and loses no bit of
any five bytes. -/
def Obligations.EncodeAndDecodeFramesRoundTrip : Prop :=
  (∀ b0 b1 b2 b3 b4 : Byte,
    decodeFrame [b0, b1, b2, b3, b4] =
      some { op := b0, arg := b1 ++ b2 ++ b3 ++ b4, cls := classOf b0 }) ∧
  (∀ (op : Byte) (arg : Word) (bs : List Byte), encodeCommand op arg = some bs →
    decodeFrame bs = some { op := op, arg := arg, cls := classOf op }) ∧
  (∀ (bs : List Byte) (f : Frame), decodeFrame bs = some f →
    frameBytes f.op f.arg = bs ∧ (isCommand f.op = true → encodeCommand f.op f.arg = some bs))

/-- R70, R71: bytes decode to an instruction exactly when they begin with its encoding; what follows is the rest. -/
def Obligations.DecodeAndEncodeInstructionsAgree : Prop :=
  ∀ (bs rest : List Byte) (i : Instr), decodeBytes bs = .ok (i, rest) ↔ bs = encode i ++ rest

/-- Words written out from the encodings of R120 to R125 and the examples of 41_frame_commands.md. -/
def Obligations.WrittenOutFramesDecode : Prop :=
  decodeBytes [0x00#8, 0x00#8, 0x00#8, 0x01#8, 0x00#8] = .ok (.invalid 0x00000100#32, []) ∧
  decodeBytes [0x01#8, 0x00#8, 0x00#8, 0x00#8, 0x00#8] = .ok (.echo 0#32, []) ∧
  decodeBytes [0x02#8, 0x00#8, 0x00#8, 0x01#8, 0x00#8] = .ok (.setsize 0x00000100#32, []) ∧
  decodeBytes [0x03#8, 0x00#8, 0x00#8, 0x00#8, 0x00#8] = .ok (.update 0#32, []) ∧
  decodeBytes [0x04#8, 0x04#8, 0xF1#8, 0xF1#8, 0x47#8] = .ok (.check 0x04F1F147#32, []) ∧
  decodeBytes [0x05#8, 0x08#8, 0x00#8, 0x40#8, 0x00#8] = .ok (.jump 0x08004000#32, [])

/-! ## The wire instructions -/

/-- R121 to R125: each command sent from an idle Encoder emits its five bytes without refusal, is encoded and decoded
as those five bytes, and, received, completes in every state: it is delivered with its opcode, argument and class,
`DEC_CNT` returns to 0, nothing else changes. -/
def Obligations.EveryCommandIsSentAndDelivered : Prop :=
  ∀ row ∈ ([(0x01#8, Instr.echo, FrameClass.echo), (0x02#8, Instr.setsize, FrameClass.setsize),
      (0x03#8, Instr.update, FrameClass.update), (0x04#8, Instr.check, FrameClass.check),
      (0x05#8, Instr.jump, FrameClass.jump)] : List (Byte × (Word → Instr) × FrameClass)),
    ∀ (arg : Word) (s : State),
      encode (row.2.1 arg) =
        [row.1, arg.extractLsb' 24 8, arg.extractLsb' 16 8, arg.extractLsb' 8 8, arg.extractLsb' 0 8] ∧
      decodeFrameValue (row.1 ++ arg) = .ok (row.2.1 arg) ∧
      exec (row.2.1 arg) s = .next { s with
        decCnt := 0#3
        transcript := s.transcript ++
          [(.decByte (arg.extractLsb' 0 8), .frame { op := row.1, arg := arg, cls := row.2.2 })] } ∧
      (s.encCnt = 0#3 → ∃ t : State, performAll (send row.1 arg) s = .next t ∧
        noRefusal (t.transcript.drop s.transcript.length) = true ∧
        emittedBytes (t.transcript.drop s.transcript.length) = encode (row.2.1 arg))

/-- R120: opcode `0x00` is refused by `ENC_LOAD` in every state with no register changed; a received frame with it
completes in every state, delivered with class `Invalid`. -/
def Obligations.InvalidIsRefusedToSendButDelivered : Prop :=
  ∀ (arg : Word) (s : State),
    perform (.encLoad 0x00#8 arg) s = .next { s with
      transcript := s.transcript ++ [(.encLoad 0x00#8 arg, .refused .badOpcode)] } ∧
    encode (.invalid arg) =
      [0x00#8, arg.extractLsb' 24 8, arg.extractLsb' 16 8, arg.extractLsb' 8 8, arg.extractLsb' 0 8] ∧
    decodeFrameValue (0x00#8 ++ arg) = .ok (.invalid arg) ∧
    exec (.invalid arg) s = .next { s with
      decCnt := 0#3
      transcript := s.transcript ++
        [(.decByte (arg.extractLsb' 0 8), .frame { op := 0x00#8, arg := arg, cls := .invalid })] }

/-- R126, R76: opcodes `0x06` to `0xFF` are refused by `ENC_LOAD` in every state, decode to no instruction, and the
step that receives the last byte of such a frame delivers it with class `Reserved`, opcode and argument as received. -/
def Obligations.ReservedOpcodesAreDeliveredIntact : Prop :=
  ∀ (op : Byte) (arg : Word) (s : State), 6 ≤ op.toNat →
    perform (.encLoad op arg) s = .next { s with
      transcript := s.transcript ++ [(.encLoad op arg, .refused .badOpcode)] } ∧
    decodeFrameValue (op ++ arg) = .error (.reserved op arg) ∧
    (∀ rest, s.decCnt = 4#3 → s.decSr = op ++ arg.extractLsb' 8 24 →
      s.pending = .decByte (arg.extractLsb' 0 8) :: rest →
      step s = .next { s with
        decCnt := 0#3
        pending := rest
        transcript := s.transcript ++
          [(.decByte (arg.extractLsb' 0 8), .frame { op := op, arg := arg, cls := .reserved })] })

/-- R37, R142: the frame of all six instructions. Executing one changes `DEC_CNT` and adds one answer; `CRC`, `PK_BUF`,
`PK_CNT`, `ENC_SR`, `ENC_CNT`, `DEC_SR`, the configuration and what is pending stay. -/
def Obligations.ExecChangesOnlyTheFrameBoundary : Prop :=
  ∀ (i : Instr) (s t : State), exec i s = .next t →
    t.crc = s.crc ∧ t.pkBuf = s.pkBuf ∧ t.pkCnt = s.pkCnt ∧ t.encSr = s.encSr ∧ t.encCnt = s.encCnt ∧
    t.decSr = s.decSr ∧ t.config = s.config ∧ t.pending = s.pending ∧
    t.crcResidue = s.crcResidue ∧ t.encBusy = s.encBusy ∧ t.decMidframe = false ∧
    ∃ e, t.transcript = s.transcript ++ [e]

/-- When the four bytes in `DEC_SR` and the byte of the pending `DEC_BYTE` decode to an instruction, the step runs
exactly that instruction, with the operation taken from what is pending. -/
def Obligations.StepRunsTheDecodedInstruction : Prop :=
  ∀ (s : State) (b : Byte) (rest : List Op) (i : Instr),
    s.pending = .decByte b :: rest → 4#3 ≤ s.decCnt →
    decodeBytes [wordByte s.decSr 3, wordByte s.decSr 2, wordByte s.decSr 1, wordByte s.decSr 0, b] =
      .ok (i, []) →
    step s = exec i { s with pending := rest }

/-- A table word placed for fetching is run by the very next step (the model's own fetch helper). -/
def Obligations.PlacedTableWordRunsNext : Prop :=
  ∀ (s : State) (nbits w : Nat) (i : Instr), decodeTableWord nbits w = some i →
    ∃ u : State, step (s.withFetchWord nbits w) = exec i u ∧ u.pending = s.pending ∧
      u.transcript = s.transcript ∧ u.crc = s.crc ∧ u.pkBuf = s.pkBuf ∧ u.pkCnt = s.pkCnt ∧
      u.encSr = s.encSr ∧ u.encCnt = s.encCnt ∧ u.config = s.config

/-! ## The Decoder -/

/-- R142: the first four bytes of a frame are collected and answered with nothing; the fifth delivers
`frame(DEC_SR[31:24], {DEC_SR[23:0], b}, class_of(DEC_SR[31:24]))`, whatever the class. -/
def Obligations.DecByteDeliversOnTheFifthByte : Prop :=
  ∀ (s : State) (b : Byte), ∃ t : State, perform (.decByte b) s = .next t ∧
    t.crc = s.crc ∧ t.pkBuf = s.pkBuf ∧ t.pkCnt = s.pkCnt ∧ t.encSr = s.encSr ∧ t.encCnt = s.encCnt ∧
    t.config = s.config ∧ t.pending = s.pending ∧
    (s.decCnt.toNat < 4 →
      t.decSr = s.decSr.extractLsb' 0 24 ++ b ∧ t.decCnt.toNat = s.decCnt.toNat + 1 ∧
      t.decMidframe = true ∧
      t.transcript = s.transcript ++ [(.decByte b, .nothing)]) ∧
    (4 ≤ s.decCnt.toNat →
      t.decSr = s.decSr ∧ t.decCnt = 0#3 ∧ t.decMidframe = false ∧
      t.transcript = s.transcript ++ [(.decByte b, .frame
        { op := s.decSr.extractLsb' 24 8
          arg := s.decSr.extractLsb' 0 24 ++ b
          cls := classOf (s.decSr.extractLsb' 24 8) })])

/-- R143: `DEC_SYNC` in every state. -/
def Obligations.DecSyncReturnsToTheBoundary : Prop :=
  ∀ s : State, ∃ t : State, perform .decSync s = .next t ∧
    t.decCnt = 0#3 ∧ t.decSr = s.decSr ∧
    t.crc = s.crc ∧ t.pkBuf = s.pkBuf ∧ t.pkCnt = s.pkCnt ∧ t.encSr = s.encSr ∧ t.encCnt = s.encCnt ∧
    t.config = s.config ∧ t.pending = s.pending ∧ t.transcript = s.transcript ++ [(.decSync, .done)]

/-- R144: from `d` bytes held (`DEC_CNT = d`, at most 4, an invariant of its own below), `receive(bs)` is answered with
a record exactly at the bytes that complete a group of five of the held bytes followed by `bs`, that record is `decode`
of the group, and `DEC_CNT` ends at `(d + k) mod 5`. -/
def Obligations.ReceiveDecodesGroupsOfFive : Prop :=
  ∀ (s : State) (bs : List Byte), s.countsLegal →
    ∃ t : State, performAll (receive bs) s = .next t ∧
      t.decCnt.toNat = (s.decCnt.toNat + bs.length) % 5 ∧
      (resultsAfter s.transcript.length t.transcript).length = bs.length ∧
      ∀ j, j < bs.length →
        ((s.decCnt.toNat + j + 1) % 5 ≠ 0 →
          (resultsAfter s.transcript.length t.transcript)[j]? = some .nothing) ∧
        ((s.decCnt.toNat + j + 1) % 5 = 0 →
          ∃ f, (resultsAfter s.transcript.length t.transcript)[j]? = some (.frame f) ∧
            decodeFrame
              (((decHeld s.decCnt.toNat s.decSr ++ bs).drop (s.decCnt.toNat + j + 1 - 5)).take 5) = some f)

/-- R144, last sentence, for frames of any opcode: the Decoder fed the wire bytes of frames one after the other from a
frame boundary delivers those frames in order, each with the class of its opcode. -/
def Obligations.ReceivingFramesDeliversThemInOrder : Prop :=
  ∀ (s : State) (frames : List (Byte × Word)), s.decCnt = 0#3 →
    ∃ t : State, performAll (receive (frames.flatMap (fun c => frameBytes c.1 c.2))) s = .next t ∧
      t.decCnt = 0#3 ∧
      framesAfter s.transcript.length t.transcript =
        frames.map (fun c => { op := c.1, arg := c.2, cls := classOf c.1 })

/-! ## Refusals, order, independence -/

/-- R180, R181, R183: every operation is answered in every state; it is refused exactly under the five conditions of
the table, and a refused operation changes no register. -/
def Obligations.RefusalsAreExactlyTheFive : Prop :=
  ∀ (o : Op) (s : State), ∃ (t : State) (r : OpResult), perform o s = .next t ∧
    t.transcript = s.transcript ++ [(o, r)] ∧
    ((∃ reason, r = .refused reason) → sameRegisters s t ∧ t.config = s.config ∧ t.pending = s.pending) ∧
    (r = .refused .wordWhileResidue ↔ (∃ w, o = .crcWord w) ∧ s.pkCnt ≠ 0#2) ∧
    (r = .refused .tailResidue ↔ o = .crcFlush ∧ s.pkCnt ≠ 0#2 ∧ s.config.tailPolicy = .refuse) ∧
    (r = .refused .badOpcode ↔ ∃ op arg, o = .encLoad op arg ∧ (op = 0x00#8 ∨ 0x06#8 ≤ op)) ∧
    (r = .refused .encoderBusy ↔
      ∃ op arg, o = .encLoad op arg ∧ ¬ (op = 0x00#8 ∨ 0x06#8 ≤ op) ∧ s.encCnt ≠ 0#3) ∧
    (r = .refused .encoderIdle ↔ o = .encPop ∧ s.encCnt = 0#3)

/-- R33, R184: no step faults or is refused by the model: every operation completes or is answered with a reason. -/
def Obligations.EveryStepCompletes : Prop := ∀ s : State, ∃ t : State, step s = .next t

/-- R60, R32: a step performs exactly the operation the environment issues next and answers it once; the
configuration never changes; with nothing issued nothing changes (the last clause is the model's choice, log entry 2). -/
def Obligations.StepPerformsOneOperation : Prop :=
  (∀ (s : State) (o : Op) (rest : List Op), s.pending = o :: rest →
    ∃ (t : State) (r : OpResult), step s = .next t ∧ perform o { s with pending := rest } = .next t ∧
      t.pending = rest ∧ t.config = s.config ∧ t.transcript = s.transcript ++ [(o, r)]) ∧
  (∀ s : State, s.pending = [] → step s = .next s)

/-- R60, R81: a sequence that runs to its end unrefused is what as many steps make of it when it is what the
environment issues. -/
def Obligations.PendingOperationsRunInOrder : Prop :=
  ∀ (s t : State) (ops rest : List Op),
    performAll ops { s with pending := rest } = .next t →
    noRefusal (t.transcript.drop s.transcript.length) = true →
    core.run ops.length { s with pending := ops ++ rest } = .next t

/-- R37: an operation changes the registers of its own unit only. -/
def Obligations.UnitsShareNoRegister : Prop :=
  ∀ (o : Op) (s t : State), perform o s = .next t →
    (o.unit = some .engine →
      t.encSr = s.encSr ∧ t.encCnt = s.encCnt ∧ t.decSr = s.decSr ∧ t.decCnt = s.decCnt) ∧
    (o.unit = some .encoder →
      t.crc = s.crc ∧ t.pkBuf = s.pkBuf ∧ t.pkCnt = s.pkCnt ∧ t.decSr = s.decSr ∧ t.decCnt = s.decCnt) ∧
    (o.unit = some .decoder →
      t.crc = s.crc ∧ t.pkBuf = s.pkBuf ∧ t.pkCnt = s.pkCnt ∧ t.encSr = s.encSr ∧ t.encCnt = s.encCnt)

/-- R37: two operations of different units commute: the same registers and the same two results in either order. -/
def Obligations.OperationsOfDifferentUnitsCommute : Prop :=
  ∀ (o p : Op) (s : State), o.unit ≠ none → p.unit ≠ none → o.unit ≠ p.unit →
    ∃ (a ab b ba : State) (r q : OpResult),
      perform o s = .next a ∧ perform p a = .next ab ∧ perform p s = .next b ∧ perform o b = .next ba ∧
      sameRegisters ab ba ∧
      ab.transcript = s.transcript ++ [(o, r), (p, q)] ∧ ba.transcript = s.transcript ++ [(p, q), (o, r)]

/-- R22, R24, R26 (93_implementation_defined.md U9): the bits of the three buffers that the spec calls unread never
reach an answer: two states that agree on all the others stay so, step by step, with the same answers. -/
def Obligations.UnreadBitsAreUnobservable : Prop :=
  ∀ s s' t : State, sameReadable s s' → s.countsLegal → step s = .next t →
    ∃ t' : State, step s' = .next t' ∧ sameReadable t t'

/-! ## Invariants -/

/-- R28: every step keeps the counters in their ranges. -/
def Obligations.EveryStepKeepsCountsLegal : Prop :=
  ∀ s t : State, s.countsLegal → step s = .next t → t.countsLegal

/-- R28: in every state reachable from `RESET` by operations, the counters are in their ranges. -/
def Obligations.ReachableCountsAreLegal : Prop :=
  ∀ (c : Config) (ops : List Op) (k : Nat) (t : State),
    core.run k { State.reset with config := c, pending := ops } = .next t →
    t.pkCnt.toNat ≤ 3 ∧ t.encCnt.toNat ≤ 5 ∧ t.decCnt.toNat ≤ 4

/-- R21 to R23, R92 to R100: every step keeps the engine at the checksum of the image it has been given, with the
bytes that make no word yet in the packer. -/
def Obligations.EveryStepKeepsTheChecksumOfTheImage : Prop :=
  ∀ s t : State, s.engineAgrees → step s = .next t → t.engineAgrees

/-- R134: every step keeps the frame-byte-out stream, continued by what is still to emit, equal to the frames of the
commands accepted since the last `RESET`, in order and whole. -/
def Obligations.EveryStepKeepsFramesWholeAndInOrder : Prop :=
  ∀ s t : State, s.encoderAgrees → step s = .next t → t.encoderAgrees

/-- R141 c, R144: every step keeps the bytes received since the last `RESET` or `DEC_SYNC` equal to those of the
frames delivered, in order, continued by the bytes held, each frame with the class of its opcode. -/
def Obligations.EveryStepKeepsReceivedBytesAccountedFor : Prop :=
  ∀ s t : State, s.decoderAgrees → step s = .next t → t.decoderAgrees

/-! ## The environment (44_protocol_context.md; software beside the block) -/

/-- R159: `ceil(L/1024)` chunks that make up the image, all of 1024 bytes but the last, which has `L mod 1024` (or
1024). -/
def Obligations.ChunksCoverTheImage : Prop :=
  ∀ image : List Byte,
    (chunks image).flatten = image ∧
    1024 * ((chunks image).length - 1) < max image.length 1 ∧ image.length ≤ 1024 * (chunks image).length ∧
    ((chunks image).map List.length).sum = image.length ∧
    (∀ i c, (chunks image)[i]? = some c → i + 1 < (chunks image).length → c.length = 1024) ∧
    (∀ c, (chunks image).getLast? = some c →
      c.length = if image.length % 1024 = 0 then 1024 else image.length % 1024)

/-- R153, R154: with only reads in time that bring no line with the pattern before it, a line that contains the pattern
ends the wait at once as `Matched` if the clock is not past the deadline; a read after the deadline ends it as `TimedOut`,
whatever it brings (log entry 8), and so would the end of the reads, which no wait comes to (O56); every line received is
surfaced, whatever the outcome. Containing is substring containment (log entry 11: case included). -/
def Obligations.AwaitMatchesTheFirstLineInTime : Prop :=
  ∀ (pattern : Line) (deadlineMs : Nat) (t : Transport) (before after : List ReadEvent),
    (∀ e ∈ before, e.after.nowMs ≤ deadlineMs ∧ ∀ l, e.result = .line l → containsPattern pattern l = false) →
    (∀ (u : Transport) (l : Line), containsPattern pattern l = true → u.nowMs ≤ deadlineMs →
      awaitReads pattern deadlineMs t (before ++ ⟨.line l, u⟩ :: after) = ⟨.matched, linesOf before ++ [l], u⟩) ∧
    (∀ e : ReadEvent, deadlineMs < e.after.nowMs →
      awaitReads pattern deadlineMs t (before ++ e :: after) =
        ⟨.timedOut, linesOf (before ++ [e]), e.after⟩) ∧
    ((awaitReads pattern deadlineMs t before).outcome = .timedOut ∧
      (awaitReads pattern deadlineMs t before).lines = linesOf before) ∧
    (∀ l : Line, containsPattern pattern l = true ↔ ∃ a b : Line, l = a ++ pattern ++ b)

/-- R156, R157, R208, R164 scenario 1: over an image of `4n` bytes, fewer than 2^32, and a block with an idle Encoder, a run
of as many transitions as the update has, whatever the device sends and when, ends in `Failed` (a wait was not answered)
or else has reached `Done` with every chunk reported and has written `ECHO(0)`, `SETSIZE(L)`, `UPDATE(0)`, the raw image,
`CHECK(checksum)`; a device that answers each stage with its line brings it to `Done`, whatever stale text was in the
input buffer, as long as nothing else is on its way. -/
def Obligations.AnsweredRunWritesTheWholeUpdate : Prop :=
  ∀ (params : EnvParams) (transport : Transport) (image : List Byte) (block : State),
    image.length % 4 = 0 → image.length < 2 ^ 32 → block.encCnt = 0#3 →
    (∀ inputs : List (List Arrival), inputs.length = chunkCount image.length + 6 →
      let o := (Orchestrator.start params transport image block).run (inputs.map .proceed)
      o.stage ≠ .failed →
      o.stage = .done ∧ o.exitCode = 0 ∧ o.error = none ∧ o.session = none ∧
        o.progress.length = chunkCount image.length ∧
        o.written = frameBytes 0x01#8 0#32 ++ frameBytes 0x02#8 (BitVec.ofNat 32 image.length) ++
          frameBytes 0x03#8 0#32 ++ image ++
          frameBytes 0x04#8 (computeChecksum (wordsOfBytes block.config.wordOrder image).1 INIT POLY)) ∧
    (transport.incoming = [] →
      let text (l : Line) : List Arrival := (l ++ ['\n']).map (fun c => ⟨0, c⟩)
      ((Orchestrator.start params transport image block).run
        (([text readyPattern, text successToken, text successToken, []] ++
          List.replicate (chunkCount image.length) (text successToken) ++
          [text successToken, text successToken]).map .proceed)).stage = .done)

/-- R155, R156, R158, R161, R162: in a stage that waits, a wait for its pattern that times out (O52, O56 say when) ends the
run in `Failed` with the error of the stage, exit code 1 and no session, whatever else arrives; in stage verifying this
is said of an image that has a checksum (log entry 8 says what happens to another). A run in `Done` or `Failed`, or
with an error, does nothing more. -/
def Obligations.UnansweredStageFailsTheRun : Prop :=
  (∀ (o : Orchestrator) (input : List Arrival) (pattern : Line) (timeoutMs : Nat) (e : EnvError), o.error = none →
    ((o.stage = .init ∧ pattern = readyPattern ∧ timeoutMs = 5000 ∧ e = .handshakeFailure) ∨
      (o.stage = .ready ∧ pattern = successToken ∧ timeoutMs = 5000 ∧ e = .stageTimeout .ready) ∨
      (o.stage = .sizeSet ∧ pattern = successToken ∧ timeoutMs = 15000 ∧ e = .stageTimeout .sizeSet) ∨
      (o.stage = .streaming ∧ (∃ t, o.session = some t ∧ t.bytesSent < t.totalSize) ∧ pattern = successToken ∧
        timeoutMs = 10000 ∧ e = .stageTimeout .streaming) ∨
      (o.stage = .streaming ∧ (∃ t, o.session = some t ∧ t.totalSize ≤ t.bytesSent) ∧ pattern = successToken ∧
        timeoutMs = 2000 ∧ e = .stageTimeout .streaming) ∨
      (o.stage = .verifying ∧ (o.image.length % 4 = 0 ∨ o.block.config.tailPolicy ≠ .refuse) ∧
        pattern = successToken ∧ timeoutMs = 5000 ∧ e = .checksumMismatch)) →
    ((o.transport.hear input).await o.params pattern timeoutMs).outcome = .timedOut →
    (o.act (.proceed input)).stage = .failed ∧ (o.act (.proceed input)).error = some e ∧
      (o.act (.proceed input)).exitCode = 1 ∧ (o.act (.proceed input)).session = none) ∧
  (∀ (o : Orchestrator) (r : Request), (o.stage = .done ∨ o.stage = .failed ∨ o.error ≠ none) → o.act r = o)

/-- R151: a read returns a complete line with its newline, the first one, within its timeout, or a timeout signal after
its timeout when none has been completed by then; no character is lost, added or reordered. Discarding the input buffer
loses exactly what has arrived and is unread. -/
def Obligations.ReadLineReturnsWholeLinesOnly : Prop :=
  ∀ (t : Transport) (timeoutMs : Nat),
    let e := t.readLine timeoutMs
    t.nowMs ≤ e.after.nowMs ∧ e.after.nowMs ≤ t.nowMs + timeoutMs ∧
    (∀ l, e.result = .line l →
      (∃ text, l = text ++ ['\n'] ∧ '\n' ∉ text) ∧
      l ++ e.after.unread ++ e.after.incoming.map Arrival.char = t.unread ++ t.incoming.map Arrival.char) ∧
    (e.result = .noLine →
      e.after.nowMs = t.nowMs + timeoutMs ∧ '\n' ∉ e.after.unread ∧
      (∀ a rest, e.after.incoming = a :: rest → t.nowMs + timeoutMs < a.atMs) ∧
      e.after.unread ++ e.after.incoming.map Arrival.char = t.unread ++ t.incoming.map Arrival.char) ∧
    t.discardInput.nowMs = t.nowMs ∧ t.discardInput.unread = [] ∧
    (∃ gone, t.incoming = gone ++ t.discardInput.incoming ∧ ∀ a ∈ gone, a.atMs ≤ t.nowMs) ∧
    (∀ a rest, t.discardInput.incoming = a :: rest → t.nowMs < a.atMs)

/-- R153, R154: for every device, per-call read timeout (at least 1 ms for a read without a line, log entry 8), pattern and
timeout, a wait ends as `TimedOut` only past its deadline and as `Matched` only by it, on a line that contains the pattern;
no earlier line of the wait contains it; the lines surfaced are all the characters taken from the transport. -/
def Obligations.AwaitEndsByAMatchOrPastTheDeadline : Prop :=
  ∀ (t : Transport) (p : EnvParams) (pattern : Line) (timeoutMs : Nat),
    let r := t.await p pattern timeoutMs
    (r.outcome = .timedOut → t.nowMs + timeoutMs < r.after.nowMs) ∧
    (r.outcome = .matched →
      r.after.nowMs ≤ t.nowMs + timeoutMs ∧ ∃ l, r.lines.getLast? = some l ∧ containsPattern pattern l = true) ∧
    (∀ l ∈ r.lines.dropLast, containsPattern pattern l = false) ∧
    r.lines.flatten ++ r.after.unread ++ r.after.incoming.map Arrival.char =
      t.unread ++ t.incoming.map Arrival.char

/-- R156, R162: in stage `ready` the echo probe sends `ECHO(0)` and awaits the success token, once or twice, and stays in
`ready`; after two failed attempts the run is over with `ProbeFailure` and exit code 1, and no request moves it. In any
other stage a probe has no effect (log entry 8). -/
def Obligations.FailedProbeAbortsTheRun : Prop :=
  ∀ (o : Orchestrator) (first second : List Arrival), o.error = none →
    let a := (o.transport.hear first).await o.params successToken 5000
    let b := (a.after.hear second).await o.params successToken 5000
    let p := o.act (.probe first second)
    (o.stage ≠ .ready → p = o) ∧
    (o.stage = .ready → p.stage = .ready ∧
      (a.outcome = .matched → p.error = none ∧ p.transport = a.after ∧
        (o.block.encCnt = 0#3 → p.written = o.written ++ frameBytes 0x01#8 0#32)) ∧
      (a.outcome = .timedOut → p.transport = b.after ∧
        (o.block.encCnt = 0#3 → p.written = o.written ++ frameBytes 0x01#8 0#32 ++ frameBytes 0x01#8 0#32) ∧
        (b.outcome = .matched → p.error = none) ∧
        (b.outcome = .timedOut →
          p.error = some .probeFailure ∧ ∀ rs : List Request, p.run rs = p ∧ (p.run rs).exitCode = 1)))

/-! ## Status values -/

/-- R31: each status value is true exactly while its counter is not 0, in every state, and no refused operation changes
one. -/
def Obligations.StatusValuesFollowTheCounters : Prop :=
  (∀ s : State,
    (s.crcResidue = true ↔ s.pkCnt.toNat ≠ 0) ∧ (s.encBusy = true ↔ s.encCnt.toNat ≠ 0) ∧
    (s.decMidframe = true ↔ s.decCnt.toNat ≠ 0)) ∧
  (∀ (o : Op) (s t : State) (reason : RefusalReason), perform o s = .next t →
    t.transcript = s.transcript ++ [(o, .refused reason)] →
    t.crcResidue = s.crcResidue ∧ t.encBusy = s.encBusy ∧ t.decMidframe = s.decMidframe)
end

