-- ==== Sys2Proof/Laws/State.lean ====
section
/-! SUPPORT. One lemma for each field and each update of the state, so that no later proof unfolds a record update. -/

namespace Sys2Proof.Machine

@[simp] theorem State.answer_crc (s : State) (o : Op) (r : OpResult) : (s.answer o r).crc = s.crc := rfl
@[simp] theorem State.answer_pkBuf (s : State) (o : Op) (r : OpResult) : (s.answer o r).pkBuf = s.pkBuf := rfl
@[simp] theorem State.answer_pkCnt (s : State) (o : Op) (r : OpResult) : (s.answer o r).pkCnt = s.pkCnt := rfl
@[simp] theorem State.answer_encSr (s : State) (o : Op) (r : OpResult) : (s.answer o r).encSr = s.encSr := rfl
@[simp] theorem State.answer_encCnt (s : State) (o : Op) (r : OpResult) : (s.answer o r).encCnt = s.encCnt := rfl
@[simp] theorem State.answer_decSr (s : State) (o : Op) (r : OpResult) : (s.answer o r).decSr = s.decSr := rfl
@[simp] theorem State.answer_decCnt (s : State) (o : Op) (r : OpResult) : (s.answer o r).decCnt = s.decCnt := rfl
@[simp] theorem State.answer_config (s : State) (o : Op) (r : OpResult) : (s.answer o r).config = s.config := rfl
@[simp] theorem State.answer_pending (s : State) (o : Op) (r : OpResult) : (s.answer o r).pending = s.pending := rfl
@[simp] theorem State.answer_transcript (s : State) (o : Op) (r : OpResult) : (s.answer o r).transcript = s.transcript ++ [(o, r)] := rfl

@[simp] theorem State.refuse_crc (s : State) (o : Op) (reason : RefusalReason) : (s.refuse o reason).crc = s.crc := rfl
@[simp] theorem State.refuse_pkBuf (s : State) (o : Op) (reason : RefusalReason) : (s.refuse o reason).pkBuf = s.pkBuf := rfl
@[simp] theorem State.refuse_pkCnt (s : State) (o : Op) (reason : RefusalReason) : (s.refuse o reason).pkCnt = s.pkCnt := rfl
@[simp] theorem State.refuse_encSr (s : State) (o : Op) (reason : RefusalReason) : (s.refuse o reason).encSr = s.encSr := rfl
@[simp] theorem State.refuse_encCnt (s : State) (o : Op) (reason : RefusalReason) : (s.refuse o reason).encCnt = s.encCnt := rfl
@[simp] theorem State.refuse_decSr (s : State) (o : Op) (reason : RefusalReason) : (s.refuse o reason).decSr = s.decSr := rfl
@[simp] theorem State.refuse_decCnt (s : State) (o : Op) (reason : RefusalReason) : (s.refuse o reason).decCnt = s.decCnt := rfl
@[simp] theorem State.refuse_config (s : State) (o : Op) (reason : RefusalReason) : (s.refuse o reason).config = s.config := rfl
@[simp] theorem State.refuse_pending (s : State) (o : Op) (reason : RefusalReason) : (s.refuse o reason).pending = s.pending := rfl
@[simp] theorem State.refuse_transcript (s : State) (o : Op) (reason : RefusalReason) : (s.refuse o reason).transcript = s.transcript ++ [(o, .refused reason)] := rfl

@[simp] theorem State.deliver_crc (s : State) (f : Frame) : (s.deliver f).crc = s.crc := rfl
@[simp] theorem State.deliver_pkBuf (s : State) (f : Frame) : (s.deliver f).pkBuf = s.pkBuf := rfl
@[simp] theorem State.deliver_pkCnt (s : State) (f : Frame) : (s.deliver f).pkCnt = s.pkCnt := rfl
@[simp] theorem State.deliver_encSr (s : State) (f : Frame) : (s.deliver f).encSr = s.encSr := rfl
@[simp] theorem State.deliver_encCnt (s : State) (f : Frame) : (s.deliver f).encCnt = s.encCnt := rfl
@[simp] theorem State.deliver_decSr (s : State) (f : Frame) : (s.deliver f).decSr = s.decSr := rfl
@[simp] theorem State.deliver_decCnt (s : State) (f : Frame) : (s.deliver f).decCnt = 0#3 := rfl
@[simp] theorem State.deliver_config (s : State) (f : Frame) : (s.deliver f).config = s.config := rfl
@[simp] theorem State.deliver_pending (s : State) (f : Frame) : (s.deliver f).pending = s.pending := rfl
@[simp] theorem State.deliver_transcript (s : State) (f : Frame) : (s.deliver f).transcript = s.transcript ++ [(.decByte (wordByte f.arg 0), .frame f)] := rfl

@[simp] theorem State.receiveByte_crc (s : State) (b : Byte) : (s.receiveByte b).crc = s.crc := rfl
@[simp] theorem State.receiveByte_pkBuf (s : State) (b : Byte) : (s.receiveByte b).pkBuf = s.pkBuf := rfl
@[simp] theorem State.receiveByte_pkCnt (s : State) (b : Byte) : (s.receiveByte b).pkCnt = s.pkCnt := rfl
@[simp] theorem State.receiveByte_encSr (s : State) (b : Byte) : (s.receiveByte b).encSr = s.encSr := rfl
@[simp] theorem State.receiveByte_encCnt (s : State) (b : Byte) : (s.receiveByte b).encCnt = s.encCnt := rfl
@[simp] theorem State.receiveByte_decSr (s : State) (b : Byte) : (s.receiveByte b).decSr = decShift s.decSr b := rfl
@[simp] theorem State.receiveByte_decCnt (s : State) (b : Byte) : (s.receiveByte b).decCnt = s.decCnt + 1#3 := rfl
@[simp] theorem State.receiveByte_config (s : State) (b : Byte) : (s.receiveByte b).config = s.config := rfl
@[simp] theorem State.receiveByte_pending (s : State) (b : Byte) : (s.receiveByte b).pending = s.pending := rfl
@[simp] theorem State.receiveByte_transcript (s : State) (b : Byte) : (s.receiveByte b).transcript = s.transcript ++ [(.decByte b, .nothing)] := rfl

@[simp] theorem State.placeFrame_crc (s : State) (f : FrameValue) : (s.placeFrame f).crc = s.crc := rfl
@[simp] theorem State.placeFrame_pkBuf (s : State) (f : FrameValue) : (s.placeFrame f).pkBuf = s.pkBuf := rfl
@[simp] theorem State.placeFrame_pkCnt (s : State) (f : FrameValue) : (s.placeFrame f).pkCnt = s.pkCnt := rfl
@[simp] theorem State.placeFrame_encSr (s : State) (f : FrameValue) : (s.placeFrame f).encSr = s.encSr := rfl
@[simp] theorem State.placeFrame_encCnt (s : State) (f : FrameValue) : (s.placeFrame f).encCnt = s.encCnt := rfl
@[simp] theorem State.placeFrame_decSr (s : State) (f : FrameValue) : (s.placeFrame f).decSr = f.extractLsb' 8 32 := rfl
@[simp] theorem State.placeFrame_decCnt (s : State) (f : FrameValue) : (s.placeFrame f).decCnt = 4#3 := rfl
@[simp] theorem State.placeFrame_config (s : State) (f : FrameValue) : (s.placeFrame f).config = s.config := rfl
@[simp] theorem State.placeFrame_pending (s : State) (f : FrameValue) : (s.placeFrame f).pending = .decByte (f.extractLsb' 0 8) :: s.pending := rfl
@[simp] theorem State.placeFrame_transcript (s : State) (f : FrameValue) : (s.placeFrame f).transcript = s.transcript := rfl

@[simp] theorem State.answer_lastRefused (s : State) (o : Op) (r : OpResult) :
    (s.answer o r).lastRefused = (match r with | .refused _ => true | _ => false) := by
  cases r <;> simp [State.lastRefused]

end Sys2Proof.Machine
end

