-- ==== Sys2Proof/Laws/Frames.lean ====
section
/-! SUPPORT. The bits of a frame: its fields, its bytes, the bytes of a word; the spec lemma of the decoder. -/

namespace Sys2Proof

theorem getLsbD_frameValue (op : Byte) (arg : Word) (i : Nat) :
    (frameValue op arg).getLsbD i = if i < 32 then arg.getLsbD i else op.getLsbD (i - 32) :=
  BitVec.getLsbD_append

@[simp] theorem frameOpcode_frameValue (op : Byte) (arg : Word) : frameOpcode (frameValue op arg) = op := by
  apply BitVec.eq_of_getLsbD_eq
  intro i hi
  simp only [frameOpcode, BitVec.getLsbD_extractLsb', getLsbD_frameValue]
  simp [hi]

@[simp] theorem frameArg_frameValue (op : Byte) (arg : Word) : frameArg (frameValue op arg) = arg := by
  apply BitVec.eq_of_getLsbD_eq
  intro i hi
  simp only [frameArg, BitVec.getLsbD_extractLsb', getLsbD_frameValue]
  simp [hi]

theorem frameValue_fields (f : FrameValue) : frameValue (frameOpcode f) (frameArg f) = f := by
  apply BitVec.eq_of_getLsbD_eq
  intro i hi
  simp only [frameOpcode, frameArg, getLsbD_frameValue, BitVec.getLsbD_extractLsb']
  by_cases h : i < 32
  · simp [h]
  · simp [h, show 32 + (i - 32) = i by omega, show i - 32 < 8 by omega]

theorem getLsbD_wordOfBytes (b3 b2 b1 b0 : Byte) (i : Nat) :
    (wordOfBytes b3 b2 b1 b0).getLsbD i =
      if i < 8 then b0.getLsbD i else if i < 16 then b1.getLsbD (i - 8)
      else if i < 24 then b2.getLsbD (i - 16) else b3.getLsbD (i - 24) := by
  have h2 : (b3 ++ b2 ++ b1 : BitVec 24).getLsbD (i - 8) =
      if i - 8 < 8 then b1.getLsbD (i - 8) else (b3 ++ b2 : BitVec 16).getLsbD (i - 8 - 8) :=
    BitVec.getLsbD_append
  have h1 : (b3 ++ b2 : BitVec 16).getLsbD (i - 8 - 8) =
      if i - 8 - 8 < 8 then b2.getLsbD (i - 8 - 8) else b3.getLsbD (i - 8 - 8 - 8) :=
    BitVec.getLsbD_append
  have h3 : (wordOfBytes b3 b2 b1 b0).getLsbD i =
      if i < 8 then b0.getLsbD i else (b3 ++ b2 ++ b1 : BitVec 24).getLsbD (i - 8) :=
    BitVec.getLsbD_append
  rw [h3, h2, h1, show i - 8 - 8 = i - 16 by omega, show i - 16 - 8 = i - 24 by omega]
  split_ifs <;> first | rfl | omega

@[simp] theorem wordByte_wordOfBytes_zero (b3 b2 b1 b0 : Byte) : wordByte (wordOfBytes b3 b2 b1 b0) 0 = b0 := by
  apply BitVec.eq_of_getLsbD_eq
  intro i hi
  simp [wordByte, getLsbD_wordOfBytes, hi]

@[simp] theorem wordByte_wordOfBytes_one (b3 b2 b1 b0 : Byte) : wordByte (wordOfBytes b3 b2 b1 b0) 1 = b1 := by
  apply BitVec.eq_of_getLsbD_eq
  intro i hi
  simp [wordByte, getLsbD_wordOfBytes, hi, show ¬ 8 + i < 8 by omega, show 8 + i < 16 by omega]

@[simp] theorem wordByte_wordOfBytes_two (b3 b2 b1 b0 : Byte) : wordByte (wordOfBytes b3 b2 b1 b0) 2 = b2 := by
  apply BitVec.eq_of_getLsbD_eq
  intro i hi
  simp [wordByte, getLsbD_wordOfBytes, hi, show ¬ 16 + i < 8 by omega, show ¬ 16 + i < 16 by omega,
    show 16 + i < 24 by omega]

@[simp] theorem wordByte_wordOfBytes_three (b3 b2 b1 b0 : Byte) : wordByte (wordOfBytes b3 b2 b1 b0) 3 = b3 := by
  apply BitVec.eq_of_getLsbD_eq
  intro i hi
  simp [wordByte, getLsbD_wordOfBytes, hi, show ¬ 24 + i < 8 by omega, show ¬ 24 + i < 16 by omega,
    show ¬ 24 + i < 24 by omega]

@[simp] theorem wordOfBytes_wordByte (w : Word) :
    wordOfBytes (wordByte w 3) (wordByte w 2) (wordByte w 1) (wordByte w 0) = w := by
  apply BitVec.eq_of_getLsbD_eq
  intro i hi
  rw [getLsbD_wordOfBytes]
  simp only [wordByte, BitVec.getLsbD_extractLsb']
  split
  · simp [*]
  · split
    · simp [show i - 8 < 8 by omega, show 8 * 1 + (i - 8) = i by omega]
    · split
      · simp [show i - 16 < 8 by omega, show 8 * 2 + (i - 16) = i by omega]
      · simp [show i - 24 < 8 by omega, show 8 * 3 + (i - 24) = i by omega]

/-- The `match`/`mask` test of a row reads the opcode byte only. -/
theorem masked_eq_iff_opcode (f : FrameValue) (op : Byte) :
    (f &&& 0xFF00000000#40 = frameValue op 0#32) ↔ frameOpcode f = op := by
  constructor
  · intro h
    apply BitVec.eq_of_getLsbD_eq
    intro i hi
    have h' := congrArg (fun v => BitVec.getLsbD v (32 + i)) h
    have hm : (0xFF00000000#40).getLsbD (32 + i) = true := by
      have : ∀ j : Fin 8, (0xFF00000000#40).getLsbD (32 + j.val) = true := by decide
      exact this ⟨i, hi⟩
    simp only [BitVec.getLsbD_and, hm, getLsbD_frameValue] at h'
    simpa [frameOpcode, hi] using h'
  · rintro rfl
    apply BitVec.eq_of_getLsbD_eq
    intro i hi
    have hm : (0xFF00000000#40).getLsbD i = decide (32 ≤ i) := by
      have : ∀ j : Fin 40, (0xFF00000000#40).getLsbD j.val = decide (32 ≤ j.val) := by decide
      exact this ⟨i, hi⟩
    by_cases h : i < 32
    · simp [hm, getLsbD_frameValue, h]
    · simp [hm, getLsbD_frameValue, h, frameOpcode, show 32 + (i - 32) = i by omega,
        show i - 32 < 8 by omega, show 32 ≤ i by omega]

/-- The decoder (R74, R82) as a case distinction on the opcode byte. -/
theorem decodeFrameValue_eq (f : FrameValue) :
    decodeFrameValue f =
      if frameOpcode f = 0x00#8 then .ok (.invalid (frameArg f))
      else if frameOpcode f = 0x01#8 then .ok (.echo (frameArg f))
      else if frameOpcode f = 0x02#8 then .ok (.setsize (frameArg f))
      else if frameOpcode f = 0x03#8 then .ok (.update (frameArg f))
      else if frameOpcode f = 0x04#8 then .ok (.check (frameArg f))
      else if frameOpcode f = 0x05#8 then .ok (.jump (frameArg f))
      else .error (.reserved (frameOpcode f) (frameArg f)) := by
  have h (op : Byte) (m : FrameValue) (hm : m = frameValue op 0#32) :
      (f &&& 0xFF00000000#40 == m) = decide (frameOpcode f = op) := by
    rw [hm, Bool.eq_iff_iff]
    simpa using masked_eq_iff_opcode f op
  simp only [decodeFrameValue, opcodeTable, List.find?, OpcodeRow.selects, h 0x00#8 0x0000000000#40 rfl,
    h 0x01#8 0x0100000000#40 rfl, h 0x02#8 0x0200000000#40 rfl, h 0x03#8 0x0300000000#40 rfl,
    h 0x04#8 0x0400000000#40 rfl, h 0x05#8 0x0500000000#40 rfl]
  by_cases h0 : frameOpcode f = 0x00#8 <;> by_cases h1 : frameOpcode f = 0x01#8 <;>
    by_cases h2 : frameOpcode f = 0x02#8 <;> by_cases h3 : frameOpcode f = 0x03#8 <;>
    by_cases h4 : frameOpcode f = 0x04#8 <;> by_cases h5 : frameOpcode f = 0x05#8 <;>
    simp [h0, h1, h2, h3, h4, h5]

end Sys2Proof

namespace Sys2Proof.Machine

/-- A complete frame (R142): whatever its class, it is delivered with the class of its opcode. -/
theorem runFrame_eq (f : FrameValue) (s : State) :
    runFrame f s =
      .next (s.deliver { op := frameOpcode f, arg := frameArg f, cls := classOf (frameOpcode f) }) := by
  simp only [runFrame, decodeFrameValue_eq, classOf]
  split_ifs <;> simp_all [exec, execInvalid, execEcho, execSetsize, execUpdate, execCheck, execJump, execReserved]

theorem getLsbD_completedFrame (sr : Word) (b : Byte) (i : Nat) :
    (completedFrame sr b).getLsbD i = if i < 8 then b.getLsbD i else sr.getLsbD (i - 8) :=
  BitVec.getLsbD_append

theorem getLsbD_decShift (sr : Word) (b : Byte) (i : Nat) :
    (decShift sr b).getLsbD i = if i < 8 then b.getLsbD i else (sr.extractLsb' 0 24).getLsbD (i - 8) :=
  BitVec.getLsbD_append

theorem frameOpcode_completedFrame (sr : Word) (b : Byte) :
    frameOpcode (completedFrame sr b) = wordByte sr 3 := by
  apply BitVec.eq_of_getLsbD_eq
  intro i hi
  simp only [frameOpcode, wordByte, BitVec.getLsbD_extractLsb', getLsbD_completedFrame]
  simp [hi, show ¬ 32 + i < 8 by omega, show 32 + i - 8 = 24 + i by omega]

theorem frameArg_completedFrame (sr : Word) (b : Byte) :
    frameArg (completedFrame sr b) = decShift sr b := by
  apply BitVec.eq_of_getLsbD_eq
  intro i hi
  simp only [frameArg, BitVec.getLsbD_extractLsb', getLsbD_completedFrame, getLsbD_decShift]
  by_cases h : i < 8
  · simp [h, hi]
  · simp [h, hi, show i - 8 < 24 by omega]

theorem wordByte_decShift_zero (sr : Word) (b : Byte) : wordByte (decShift sr b) 0 = b := by
  apply BitVec.eq_of_getLsbD_eq
  intro i hi
  simp only [wordByte, BitVec.getLsbD_extractLsb', getLsbD_decShift]
  simp [hi]

theorem wordByte_decShift_succ (sr : Word) (b : Byte) (k : Nat) (hk : k < 3) :
    wordByte (decShift sr b) (k + 1) = wordByte sr k := by
  apply BitVec.eq_of_getLsbD_eq
  intro i hi
  simp only [wordByte, BitVec.getLsbD_extractLsb', getLsbD_decShift]
  simp [hi, show ¬ 8 * (k + 1) + i < 8 by omega, show 8 * (k + 1) + i - 8 = 8 * k + i by omega,
    show 8 * k + i < 24 by omega]

theorem decShift_eq_wordOfBytes (sr : Word) (b : Byte) :
    decShift sr b = wordOfBytes (wordByte sr 2) (wordByte sr 1) (wordByte sr 0) b := by
  rw [← wordOfBytes_wordByte (decShift sr b), wordByte_decShift_zero, wordByte_decShift_succ _ _ 0 (by omega),
    wordByte_decShift_succ _ _ 1 (by omega), wordByte_decShift_succ _ _ 2 (by omega)]

/-- `{ENC_SR[31:0], 8'h00}` is a left shift by a byte. -/
theorem encShift_eq_shiftLeft (sr : FrameValue) : encShift sr = sr <<< 8 := by
  apply BitVec.eq_of_getLsbD_eq
  intro i hi
  have h : (encShift sr).getLsbD i = if i < 8 then (0#8).getLsbD i else (sr.extractLsb' 0 32).getLsbD (i - 8) :=
    BitVec.getLsbD_append
  rw [h, BitVec.getLsbD_shiftLeft, BitVec.getLsbD_extractLsb']
  by_cases h8 : i < 8
  · simp [h8]
  · simp [h8, hi, show i - 8 < 32 by omega]

end Sys2Proof.Machine
end

