-- ==== Sys2Proof/Laws/Perform.lean ====
section
/-! SUPPORT. What each shared operation can do, said once: an operation's answer and its effect on the registers. -/

namespace Sys2Proof.Machine

/-- `DEC_BYTE` (R142) in terms of the two shared operations it is made of. -/
theorem doDecByte_eq (b : Byte) (s : State) :
    doDecByte b s =
      .next (if s.decCnt < 4#3 then s.receiveByte b
        else s.deliver { op := wordByte s.decSr 3, arg := decShift s.decSr b, cls := classOf (wordByte s.decSr 3) }) := by
  unfold doDecByte
  split
  · rfl
  · rw [runFrame_eq, frameOpcode_completedFrame, frameArg_completedFrame]

/-- The state an operation leaves. -/
def afterOp (o : Op) (s : State) : State :=
  match o with
  | .reset => doReset s
  | .crcInit => doCrcInit s
  | .crcWord w => doCrcWord w s
  | .crcByte b => doCrcByte b s
  | .crcFlush => doCrcFlush s
  | .crcRead => doCrcRead s
  | .encLoad op arg => doEncLoad op arg s
  | .encPop => doEncPop s
  | .decByte b =>
    if s.decCnt < 4#3 then s.receiveByte b
    else s.deliver { op := wordByte s.decSr 3, arg := decShift s.decSr b, cls := classOf (wordByte s.decSr 3) }
  | .decSync => doDecSync s

/-- `perform` as a function: use it to leave `Host.Outcome` at once. -/
theorem perform_eq (o : Op) (s : State) : perform o s = .next (afterOp o s) := by
  cases o <;> simp [perform, afterOp, doDecByte_eq]

theorem perform_next_iff (o : Op) (s t : State) : perform o s = .next t ↔ t = afterOp o s := by
  rw [perform_eq]
  constructor
  · intro h
    injection h with h
    exact h.symm
  · rintro rfl
    rfl

@[simp] theorem performAll_nil (s : State) : performAll [] s = .next s := rfl

theorem performAll_cons (o : Op) (os : List Op) (s : State) :
    performAll (o :: os) s =
      if (afterOp o s).lastRefused then .next (afterOp o s) else performAll os (afterOp o s) := by
  simp [performAll, perform_eq]

theorem performAll_cons_of_not_refused (o : Op) (os : List Op) (s : State) (h : (afterOp o s).lastRefused = false) :
    performAll (o :: os) s = performAll os (afterOp o s) := by
  simp [performAll_cons, h]

/-- Whether the last answer was a refusal, read off the transcript. -/
theorem State.lastRefused_of_transcript (s : State) (tr : List (Op × OpResult)) (o : Op) (r : OpResult)
    (h : s.transcript = tr ++ [(o, r)]) :
    s.lastRefused = (match r with | .refused _ => true | _ => false) := by
  cases r <;> simp [State.lastRefused, h]

/-- An operation's answer is a function of the state; its transcript grows by that one entry. -/
theorem afterOp_transcript (o : Op) (s : State) :
    ∃ r, (afterOp o s).transcript = s.transcript ++ [(o, r)] := by
  cases o <;>
    simp only [afterOp, doReset, doCrcInit, doCrcWord, doCrcByte, doCrcFlush, doCrcRead, doEncLoad, doEncPop, doDecSync]
  all_goals repeat' split
  all_goals first
    | exact ⟨_, rfl⟩
    | exact ⟨_, by rw [State.deliver_transcript, wordByte_decShift_zero]⟩

/-! Each conditional operation, case by case. -/

theorem afterOp_crcWord_of_aligned (w : Word) (s : State) (h : s.pkCnt = 0#2) :
    afterOp (.crcWord w) s = { s.answer (.crcWord w) .done with crc := crcWord s.crc w POLY } := by
  simp [afterOp, doCrcWord, State.crcResidue, h]

theorem afterOp_crcWord_of_residue (w : Word) (s : State) (h : s.pkCnt ≠ 0#2) :
    afterOp (.crcWord w) s = s.refuse (.crcWord w) .wordWhileResidue := by
  simp [afterOp, doCrcWord, State.crcResidue, h]

theorem afterOp_crcByte_of_partial (b : Byte) (s : State) (h : s.pkCnt < 3#2) :
    afterOp (.crcByte b) s =
      { s.answer (.crcByte b) .done with
        pkBuf := setBufByte s.pkBuf s.pkCnt.toNat b
        pkCnt := s.pkCnt + 1#2 } := by
  simp [afterOp, doCrcByte, h]

theorem afterOp_crcByte_of_full (b : Byte) (s : State) (h : ¬ s.pkCnt < 3#2) :
    afterOp (.crcByte b) s =
      { s.answer (.crcByte b) .done with crc := crcWord s.crc (packedWord s b) POLY, pkCnt := 0#2 } := by
  simp only [afterOp, doCrcByte, if_neg h]

theorem afterOp_crcFlush_of_aligned (s : State) (h : s.pkCnt = 0#2) :
    afterOp .crcFlush s = s.answer .crcFlush .done := by
  simp [afterOp, doCrcFlush, State.crcResidue, h]

theorem afterOp_crcFlush_of_residue (s : State) (h : s.pkCnt ≠ 0#2) :
    afterOp .crcFlush s =
      match s.config.tailPolicy with
      | .refuse => s.refuse .crcFlush .tailResidue
      | .drop => { s.answer .crcFlush .done with pkCnt := 0#2 }
      | .zeroPad =>
        { s.answer .crcFlush .done with
          crc := crcWord s.crc (padTail s.config.wordOrder (bufBytes s.pkBuf s.pkCnt.toNat)) POLY
          pkCnt := 0#2 } := by
  cases hp : s.config.tailPolicy <;> simp [afterOp, doCrcFlush, State.crcResidue, h, hp]

theorem afterOp_encLoad_of_bad (op : Byte) (arg : Word) (s : State) (h : isCommand op = false) :
    afterOp (.encLoad op arg) s = s.refuse (.encLoad op arg) .badOpcode := by
  simp [afterOp, doEncLoad, h]

theorem afterOp_encLoad_of_busy (op : Byte) (arg : Word) (s : State) (h : isCommand op = true) (hb : s.encCnt ≠ 0#3) :
    afterOp (.encLoad op arg) s = s.refuse (.encLoad op arg) .encoderBusy := by
  simp [afterOp, doEncLoad, State.encBusy, h, hb]

theorem afterOp_encLoad_of_idle (op : Byte) (arg : Word) (s : State) (h : isCommand op = true) (hb : s.encCnt = 0#3) :
    afterOp (.encLoad op arg) s =
      { s.answer (.encLoad op arg) .done with encSr := frameValue op arg, encCnt := 5#3 } := by
  simp [afterOp, doEncLoad, State.encBusy, h, hb]

theorem afterOp_encPop_of_idle (s : State) (h : s.encCnt = 0#3) :
    afterOp .encPop s = s.refuse .encPop .encoderIdle := by
  simp [afterOp, doEncPop, State.encBusy, h]

theorem afterOp_encPop_of_busy (s : State) (h : s.encCnt ≠ 0#3) :
    afterOp .encPop s =
      { s.answer .encPop (.byte (encTopByte s.encSr)) with encSr := encShift s.encSr, encCnt := s.encCnt - 1#3 } := by
  simp [afterOp, doEncPop, State.encBusy, h]

theorem afterOp_decByte_of_partial (b : Byte) (s : State) (h : s.decCnt < 4#3) :
    afterOp (.decByte b) s = s.receiveByte b := by
  simp only [afterOp, if_pos h]

theorem afterOp_decByte_of_full (b : Byte) (s : State) (h : ¬ s.decCnt < 4#3) :
    afterOp (.decByte b) s =
      s.deliver { op := wordByte s.decSr 3, arg := decShift s.decSr b, cls := classOf (wordByte s.decSr 3) } := by
  simp only [afterOp, if_neg h]

/-- The operations that are never refused (R181). -/
theorem afterOp_lastRefused_of_never (o : Op) (s : State)
    (h : (∀ w, o ≠ .crcWord w) ∧ o ≠ .crcFlush ∧ (∀ op arg, o ≠ .encLoad op arg) ∧ o ≠ .encPop) :
    (afterOp o s).lastRefused = false := by
  cases o <;>
    simp only [afterOp, doReset, doCrcInit, doCrcByte, doCrcRead, doDecSync] <;>
    (repeat' split) <;> simp_all [State.lastRefused]

@[simp] theorem afterOp_crcByte_lastRefused (b : Byte) (s : State) :
    (afterOp (.crcByte b) s).lastRefused = false :=
  afterOp_lastRefused_of_never _ _ (by simp)

@[simp] theorem afterOp_crcInit_lastRefused (s : State) : (afterOp .crcInit s).lastRefused = false :=
  afterOp_lastRefused_of_never _ _ (by simp)

@[simp] theorem afterOp_crcRead_lastRefused (s : State) : (afterOp .crcRead s).lastRefused = false :=
  afterOp_lastRefused_of_never _ _ (by simp)

@[simp] theorem afterOp_decByte_lastRefused (b : Byte) (s : State) :
    (afterOp (.decByte b) s).lastRefused = false :=
  afterOp_lastRefused_of_never _ _ (by simp)

@[simp] theorem afterOp_config (o : Op) (s : State) : (afterOp o s).config = s.config := by
  cases o <;>
    simp only [afterOp, doReset, doCrcInit, doCrcWord, doCrcByte, doCrcFlush, doCrcRead, doEncLoad, doEncPop, doDecSync]
  all_goals repeat' split
  all_goals rfl

@[simp] theorem afterOp_pending (o : Op) (s : State) : (afterOp o s).pending = s.pending := by
  cases o <;>
    simp only [afterOp, doReset, doCrcInit, doCrcWord, doCrcByte, doCrcFlush, doCrcRead, doEncLoad, doEncPop, doDecSync]
  all_goals repeat' split
  all_goals rfl

/-- An operation does not look at what is pending. -/
theorem afterOp_with_pending (o : Op) (s : State) (ops : List Op) :
    afterOp o { s with pending := ops } = { afterOp o s with pending := ops } := by
  have both (t : State) (h₁ : afterOp o s = t) (h₂ : afterOp o { s with pending := ops } = { t with pending := ops }) :
      afterOp o { s with pending := ops } = { afterOp o s with pending := ops } := by rw [h₂, h₁]
  cases o with
  | reset => rfl
  | crcInit => rfl
  | crcRead => rfl
  | decSync => rfl
  | crcWord w =>
    by_cases h : s.pkCnt = 0#2
    · exact both _ (afterOp_crcWord_of_aligned w s h) (afterOp_crcWord_of_aligned w _ h)
    · exact both _ (afterOp_crcWord_of_residue w s h) (afterOp_crcWord_of_residue w _ h)
  | crcByte b =>
    by_cases h : s.pkCnt < 3#2
    · exact both _ (afterOp_crcByte_of_partial b s h) (afterOp_crcByte_of_partial b _ h)
    · exact both _ (afterOp_crcByte_of_full b s h) (afterOp_crcByte_of_full b _ h)
  | crcFlush =>
    by_cases h : s.pkCnt = 0#2
    · exact both _ (afterOp_crcFlush_of_aligned s h) (afterOp_crcFlush_of_aligned _ h)
    · have h₁ := afterOp_crcFlush_of_residue s h
      have h₂ := afterOp_crcFlush_of_residue { s with pending := ops } h
      cases hp : s.config.tailPolicy <;> simp only [hp] at h₁ h₂ <;> exact both _ h₁ h₂
  | encLoad op arg =>
    by_cases hc : isCommand op = true
    · by_cases h : s.encCnt = 0#3
      · exact both _ (afterOp_encLoad_of_idle op arg s hc h) (afterOp_encLoad_of_idle op arg _ hc h)
      · exact both _ (afterOp_encLoad_of_busy op arg s hc h) (afterOp_encLoad_of_busy op arg _ hc h)
    · have hc : isCommand op = false := by simpa using hc
      exact both _ (afterOp_encLoad_of_bad op arg s hc) (afterOp_encLoad_of_bad op arg _ hc)
  | encPop =>
    by_cases h : s.encCnt = 0#3
    · exact both _ (afterOp_encPop_of_idle s h) (afterOp_encPop_of_idle _ h)
    · exact both _ (afterOp_encPop_of_busy s h) (afterOp_encPop_of_busy _ h)
  | decByte b =>
    by_cases h : s.decCnt < 4#3
    · exact both _ (afterOp_decByte_of_partial b s h) (afterOp_decByte_of_partial b _ h)
    · exact both _ (afterOp_decByte_of_full b s h) (afterOp_decByte_of_full b _ h)

/-- A sequence of operations only adds to the transcript. -/
theorem performAll_transcript (os : List Op) :
    ∀ s t : State, performAll os s = .next t → ∃ tr, t.transcript = s.transcript ++ tr := by
  induction os with
  | nil =>
    intro s t h
    injection h with h
    exact ⟨[], by simp [h]⟩
  | cons o os ih =>
    intro s t h
    obtain ⟨r, hr⟩ := afterOp_transcript o s
    rw [performAll_cons] at h
    split at h
    · injection h with h
      exact ⟨_, h ▸ hr⟩
    · obtain ⟨tr, h'⟩ := ih _ _ h
      exact ⟨(o, r) :: tr, by rw [h', hr]; simp⟩

/-- Which operations can write which registers: the engine's. -/
theorem afterOp_engine_frame (o : Op) (s : State) :
    ((afterOp o s).crc = s.crc ∧ (afterOp o s).pkBuf = s.pkBuf ∧ (afterOp o s).pkCnt = s.pkCnt) ∨
      o = .reset ∨ o = .crcInit ∨ (∃ w, o = .crcWord w) ∨ (∃ b, o = .crcByte b) ∨ o = .crcFlush := by
  cases o <;> simp [afterOp, doCrcRead, doEncLoad, doEncPop, doDecSync] <;> split_ifs <;> simp

/-- Which operations can write which registers: the encoder's. -/
theorem afterOp_encoder_frame (o : Op) (s : State) :
    ((afterOp o s).encSr = s.encSr ∧ (afterOp o s).encCnt = s.encCnt) ∨
      o = .reset ∨ (∃ op arg, o = .encLoad op arg) ∨ o = .encPop := by
  cases o <;>
    simp [afterOp, doCrcInit, doCrcWord, doCrcByte, doCrcFlush, doCrcRead, doDecSync] <;>
    (repeat' split) <;> simp

/-- Which operations can write which registers: the decoder's. -/
theorem afterOp_decoder_frame (o : Op) (s : State) :
    ((afterOp o s).decSr = s.decSr ∧ (afterOp o s).decCnt = s.decCnt) ∨
      o = .reset ∨ (∃ b, o = .decByte b) ∨ o = .decSync := by
  cases o <;>
    simp [afterOp, doCrcInit, doCrcWord, doCrcByte, doCrcFlush, doCrcRead, doEncLoad, doEncPop] <;>
    (repeat' split) <;> simp

/-- The state a step leaves: the next pending operation performed, or nothing. -/
def afterStep (s : State) : State :=
  match s.pending with
  | [] => s
  | o :: rest => afterOp o { s with pending := rest }

/-- `step` as a function: use it to leave `Host.Outcome` at once. -/
theorem step_eq (s : State) : step s = .next (afterStep s) := by
  unfold step afterStep
  split
  · simp_all
  · simp_all [perform_eq]

/-- An invariant of the operations that does not look at what is pending is an invariant of the step. -/
theorem step_keeps (Inv : State → Prop) (hop : ∀ o s, Inv s → Inv (afterOp o s))
    (hpending : ∀ s ops, Inv s → Inv { s with pending := ops }) :
    ∀ s t, Inv s → step s = .next t → Inv t := by
  intro s t hs ht
  rw [step_eq] at ht
  injection ht with ht
  subst ht
  unfold afterStep
  split
  · exact hs
  · exact hop _ _ (hpending _ _ hs)

end Sys2Proof.Machine
end

