-- ==== Sys2Proof/Laws/Checksum.lean ====
section
/-! SUPPORT. Small lemmas of the Checksum Engine's functions. -/

namespace Sys2Proof.Machine

theorem crcShift1_eq_xor (c P : Word) :
    crcShift1 c P = (c <<< 1) ^^^ (if c.getLsbD 31 then P else 0#32) := by
  unfold crcShift1
  split <;> simp

theorem crcShifts_add (P : Word) (m n : Nat) (c : Word) :
    crcShifts P (m + n) c = crcShifts P n (crcShifts P m c) := by
  induction m generalizing c with
  | zero => simp [crcShifts]
  | succ m ih => rw [Nat.succ_add]; exact ih _

theorem crcShifts_zero_word (P : Word) (n : Nat) : crcShifts P n 0#32 = 0#32 := by
  induction n with
  | zero => rfl
  | succ n ih => simpa [crcShifts, crcShift1] using ih

@[simp] theorem computeChecksum_nil (I P : Word) : computeChecksum [] I P = I := rfl

theorem computeChecksum_append (us vs : List Word) (I P : Word) :
    computeChecksum (us ++ vs) I P = computeChecksum vs (computeChecksum us I P) P := by
  simp [computeChecksum]

/-- A byte stored in the packer: its eight bits, and every other bit as it was. -/
theorem getLsbD_setBufByte (buf : BitVec 24) (k : Nat) (b : Byte) (j : Nat) (hj : j < 24) :
    (setBufByte buf k b).getLsbD j =
      if 8 * k ≤ j ∧ j < 8 * k + 8 then b.getLsbD (j - 8 * k) else buf.getLsbD j := by
  have hm : ∀ m : Fin 24, (0xFF#24).getLsbD m.val = decide (m.val < 8) := by decide
  simp only [setBufByte, BitVec.getLsbD_or, BitVec.getLsbD_and, BitVec.getLsbD_not, BitVec.getLsbD_shiftLeft,
    BitVec.getLsbD_setWidth, hm ⟨j - 8 * k, by omega⟩, hj]
  by_cases h1 : j < 8 * k
  · simp [h1, show ¬ 8 * k ≤ j by omega]
  · by_cases h2 : j - 8 * k < 8
    · simp [h1, h2, show 8 * k ≤ j by omega, show j < 8 * k + 8 by omega, show j - 8 * k < 24 by omega]
    · simp [h1, h2, show ¬ j < 8 * k + 8 by omega, BitVec.getLsbD_of_ge b _ (Nat.le_of_not_lt h2)]

/-- The packer's bytes: the one written reads back, the others stay. -/
theorem bufByte_setBufByte (buf : BitVec 24) (k j : Nat) (b : Byte) (_hk : k < 3) (hj : j < 3) :
    bufByte (setBufByte buf k b) j = if j = k then b else bufByte buf j := by
  apply BitVec.eq_of_getLsbD_eq
  intro i hi
  simp only [bufByte, BitVec.getLsbD_extractLsb', hi, decide_true, Bool.true_and,
    getLsbD_setBufByte buf k b (8 * j + i) (by omega)]
  by_cases hjk : j = k
  · subst hjk
    simp [hi]
  · simp only [hjk, if_false, BitVec.getLsbD_extractLsb', hi, decide_true, Bool.true_and]
    rw [if_neg (by omega)]

theorem bufBytes_setBufByte (buf : BitVec 24) (k : Nat) (b : Byte) (hk : k < 3) :
    bufBytes (setBufByte buf k b) (k + 1) = bufBytes buf k ++ [b] := by
  simp only [bufBytes, List.range_succ, List.map_append, List.map_cons, List.map_nil]
  congr 1
  · apply List.map_congr_left
    intro j hj
    have hj : j < k := by simpa using hj
    rw [bufByte_setBufByte _ _ _ _ hk (by omega), if_neg (by omega)]
  · rw [bufByte_setBufByte _ _ _ _ hk hk, if_pos rfl]

end Sys2Proof.Machine
end

