-- ==== Sys2Proof/Laws/Environment.lean ====
section
/-! SUPPORT. The environment: the fields that each shared operation of the orchestrator leaves, lines and waits. -/

namespace Sys2Proof.Machine

/-! ## Lines (R151) -/

/-- A complete line is the text up to the first newline, and the rest follows it. -/
theorem takeLine_some (cs l rest : List Char) (h : takeLine cs = some (l, rest)) :
    cs = l ++ rest ∧ ∃ text, l = text ++ ['\n'] ∧ '\n' ∉ text := by
  induction cs generalizing l with
  | nil => cases h
  | cons c cs ih =>
    simp only [takeLine] at h
    split at h
    · obtain ⟨rfl, rfl⟩ : [c] = l ∧ cs = rest := by simpa using h
      exact ⟨rfl, [], by simp [*]⟩
    · split at h
      · rename_i hc _ l' after hl
        obtain ⟨rfl, rfl⟩ : c :: l' = l ∧ after = rest := by simpa using h
        obtain ⟨e, text, ht, hn⟩ := ih l' hl
        exact ⟨by simp [e], c :: text, by simp [ht], by simpa [hn] using Ne.symm hc⟩
      · cases h

/-- There is no complete line exactly while there is no newline. -/
theorem takeLine_none_iff (cs : List Char) : takeLine cs = none ↔ '\n' ∉ cs := by
  induction cs with
  | nil => simp [takeLine]
  | cons c cs ih =>
    simp only [takeLine]
    by_cases hc : c = '\n'
    · simp [hc]
    · cases h : takeLine cs with
      | none => simpa [hc, Ne.symm hc] using ih.mp h
      | some p =>
        have : ¬ '\n' ∉ cs := fun hn => by simp [ih.mpr hn] at h
        simpa [hc, Ne.symm hc] using this

/-! ## The orchestrator, field by field -/

@[simp] theorem Orchestrator.hear_params (o : Orchestrator) (i : List Arrival) : (o.hear i).params = o.params := rfl
@[simp] theorem Orchestrator.hear_stage (o : Orchestrator) (i : List Arrival) : (o.hear i).stage = o.stage := rfl
@[simp] theorem Orchestrator.hear_image (o : Orchestrator) (i : List Arrival) : (o.hear i).image = o.image := rfl
@[simp] theorem Orchestrator.hear_session (o : Orchestrator) (i : List Arrival) : (o.hear i).session = o.session := rfl
@[simp] theorem Orchestrator.hear_block (o : Orchestrator) (i : List Arrival) : (o.hear i).block = o.block := rfl
@[simp] theorem Orchestrator.hear_transport (o : Orchestrator) (i : List Arrival) :
    (o.hear i).transport = o.transport.hear i := rfl
@[simp] theorem Orchestrator.hear_written (o : Orchestrator) (i : List Arrival) : (o.hear i).written = o.written := rfl
@[simp] theorem Orchestrator.hear_progress (o : Orchestrator) (i : List Arrival) : (o.hear i).progress = o.progress := rfl
@[simp] theorem Orchestrator.hear_error (o : Orchestrator) (i : List Arrival) : (o.hear i).error = o.error := rfl

@[simp] theorem Orchestrator.issue_params (o : Orchestrator) (ops : List Op) : (o.issue ops).params = o.params := rfl
@[simp] theorem Orchestrator.issue_stage (o : Orchestrator) (ops : List Op) : (o.issue ops).stage = o.stage := rfl
@[simp] theorem Orchestrator.issue_image (o : Orchestrator) (ops : List Op) : (o.issue ops).image = o.image := rfl
@[simp] theorem Orchestrator.issue_session (o : Orchestrator) (ops : List Op) : (o.issue ops).session = o.session := rfl
@[simp] theorem Orchestrator.issue_block (o : Orchestrator) (ops : List Op) :
    (o.issue ops).block = blockAfter ops o.block := rfl
@[simp] theorem Orchestrator.issue_transport (o : Orchestrator) (ops : List Op) :
    (o.issue ops).transport = o.transport := rfl
@[simp] theorem Orchestrator.issue_progress (o : Orchestrator) (ops : List Op) : (o.issue ops).progress = o.progress := rfl
@[simp] theorem Orchestrator.issue_error (o : Orchestrator) (ops : List Op) : (o.issue ops).error = o.error := rfl

@[simp] theorem Orchestrator.writeRaw_params (o : Orchestrator) (b : List Byte) : (o.writeRaw b).params = o.params := rfl
@[simp] theorem Orchestrator.writeRaw_transport (o : Orchestrator) (b : List Byte) :
    (o.writeRaw b).transport = o.transport := rfl

@[simp] theorem Orchestrator.afterWait_stage (o : Orchestrator) (r : WaitResult) : (o.afterWait r).stage = o.stage := rfl
@[simp] theorem Orchestrator.afterWait_error (o : Orchestrator) (r : WaitResult) : (o.afterWait r).error = o.error := rfl
@[simp] theorem Orchestrator.afterWait_params (o : Orchestrator) (r : WaitResult) : (o.afterWait r).params = o.params := rfl
@[simp] theorem Orchestrator.afterWait_block (o : Orchestrator) (r : WaitResult) : (o.afterWait r).block = o.block := rfl
@[simp] theorem Orchestrator.afterWait_written (o : Orchestrator) (r : WaitResult) :
    (o.afterWait r).written = o.written := rfl
@[simp] theorem Orchestrator.afterWait_transport (o : Orchestrator) (r : WaitResult) :
    (o.afterWait r).transport = r.after := rfl

@[simp] theorem Orchestrator.fail_stage (o : Orchestrator) (e : EnvError) : (o.fail e).stage = .failed := rfl
@[simp] theorem Orchestrator.fail_session (o : Orchestrator) (e : EnvError) : (o.fail e).session = none := rfl
@[simp] theorem Orchestrator.fail_error (o : Orchestrator) (e : EnvError) : (o.fail e).error = some e := rfl

/-! ## Waits, requests and runs -/

theorem Orchestrator.await_of_matched (o : Orchestrator) (pattern : Line) (timeoutMs : Nat)
    (f : Orchestrator → Orchestrator) (e : EnvError)
    (h : (o.transport.await o.params pattern timeoutMs).outcome = .matched) :
    o.await pattern timeoutMs f e = f (o.afterWait (o.transport.await o.params pattern timeoutMs)) := by
  simp only [Orchestrator.await, h]

theorem Orchestrator.await_of_timedOut (o : Orchestrator) (pattern : Line) (timeoutMs : Nat)
    (f : Orchestrator → Orchestrator) (e : EnvError)
    (h : (o.transport.await o.params pattern timeoutMs).outcome = .timedOut) :
    o.await pattern timeoutMs f e = (o.afterWait (o.transport.await o.params pattern timeoutMs)).fail e := by
  simp only [Orchestrator.await, h]

/-- A wait that did not fail was answered. -/
theorem Orchestrator.await_of_stage_ne_failed (o : Orchestrator) (pattern : Line) (timeoutMs : Nat)
    (f : Orchestrator → Orchestrator) (e : EnvError) (h : (o.await pattern timeoutMs f e).stage ≠ .failed) :
    o.await pattern timeoutMs f e = f (o.afterWait (o.transport.await o.params pattern timeoutMs)) := by
  cases hm : (o.transport.await o.params pattern timeoutMs).outcome with
  | matched => exact o.await_of_matched pattern timeoutMs f e hm
  | timedOut => exact absurd (congrArg Orchestrator.stage (o.await_of_timedOut pattern timeoutMs f e hm)) h

/-- In a run that is still going, a request to proceed is the transition of the stage. -/
theorem Orchestrator.act_proceed (o : Orchestrator) (input : List Arrival) (he : o.error = none) (hd : o.stage ≠ .done)
    (hf : o.stage ≠ .failed) : o.act (.proceed input) = (o.hear input).advance := by
  simp [Orchestrator.act, he, hd, hf]

@[simp] theorem Orchestrator.run_nil (o : Orchestrator) : o.run [] = o := rfl

@[simp] theorem Orchestrator.run_cons (o : Orchestrator) (r : Request) (rs : List Request) :
    o.run (r :: rs) = (o.act r).run rs := rfl

theorem Orchestrator.run_append (o : Orchestrator) (as bs : List Request) : o.run (as ++ bs) = (o.run as).run bs := by
  simp [Orchestrator.run]

end Sys2Proof.Machine
end

