-- ==== Sys2Proof/Laws/PerInstr.lean ====
section
/-! SUPPORT. Statements per instruction as syntax (30_encoding.md rules R70, R72, R74, R82). -/

namespace Sys2Proof

/-- The bytes of an instruction are one wire frame, any argument is well-formed, and a row of the opcode table selects
its frame value and makes the same instruction of its argument. -/
def Laws.TableRow.Statement (i : Instr) : Prop :=
  isWireFrame (encode i) = true ∧ i.wellFormed = true ∧
    ∃ row ∈ opcodeTable, row.selects (frameValue i.opcode i.arg) = true ∧ row.make i.arg = i

/-- A row whose mask is the opcode byte selects the frame values with its opcode. -/
theorem Laws.TableRow.selects_row (m : String) (op : Byte) (arg : Word) (make : Word → Instr) :
    (OpcodeRow.mk m (op ++ 0#32) 0xFF00000000#40 make).selects (frameValue op arg) = true := by
  simp only [OpcodeRow.selects, beq_iff_eq]
  exact (masked_eq_iff_opcode _ op).2 (frameOpcode_frameValue op arg)

theorem Laws.TableRow.invalid (arg : Word) : Laws.TableRow.Statement (.invalid arg) :=
  ⟨rfl, rfl, _, List.mem_cons_self, Laws.TableRow.selects_row "INVALID" 0x00#8 arg .invalid, rfl⟩

theorem Laws.TableRow.echo (arg : Word) : Laws.TableRow.Statement (.echo arg) :=
  ⟨rfl, rfl, _, .tail _ List.mem_cons_self, Laws.TableRow.selects_row "ECHO" 0x01#8 arg .echo, rfl⟩

theorem Laws.TableRow.setsize (arg : Word) : Laws.TableRow.Statement (.setsize arg) :=
  ⟨rfl, rfl, _, .tail _ (.tail _ List.mem_cons_self), Laws.TableRow.selects_row "SETSIZE" 0x02#8 arg .setsize, rfl⟩

theorem Laws.TableRow.update (arg : Word) : Laws.TableRow.Statement (.update arg) :=
  ⟨rfl, rfl, _, .tail _ (.tail _ (.tail _ List.mem_cons_self)),
    Laws.TableRow.selects_row "UPDATE" 0x03#8 arg .update, rfl⟩

theorem Laws.TableRow.check (arg : Word) : Laws.TableRow.Statement (.check arg) :=
  ⟨rfl, rfl, _, .tail _ (.tail _ (.tail _ (.tail _ List.mem_cons_self))),
    Laws.TableRow.selects_row "CHECK" 0x04#8 arg .check, rfl⟩

theorem Laws.TableRow.jump (arg : Word) : Laws.TableRow.Statement (.jump arg) :=
  ⟨rfl, rfl, _, .tail _ (.tail _ (.tail _ (.tail _ (.tail _ List.mem_cons_self)))),
    Laws.TableRow.selects_row "JUMP" 0x05#8 arg .jump, rfl⟩

end Sys2Proof
end

