-- ==== Sys2Proof/Laws/Run.lean ====
section
/-! SUPPORT. A run of the machine, step by step, in terms of the state each step leaves. -/

namespace Sys2Proof.Machine

theorem run_succ (M : Host.Core) (k : Nat) (s : M.State) :
    M.run (k + 1) s =
      match M.step s with
      | .next t => M.run k t
      | .fault r => .fault r
      | .refused r => .refused r := rfl

@[simp] theorem core_run_zero (s : State) : core.run 0 s = .next s := rfl

theorem core_run_succ (k : Nat) (s : State) : core.run (k + 1) s = core.run k (afterStep s) := by
  have h := run_succ core k s
  have hs : core.step s = .next (afterStep s) := step_eq s
  rw [hs] at h
  exact h

/-- An invariant that every step keeps holds after a run. -/
theorem core_run_keeps (Inv : State → Prop) (h : ∀ s t, Inv s → step s = .next t → Inv t) (k : Nat) :
    ∀ s t : State, Inv s → core.run k s = .next t → Inv t := by
  induction k with
  | zero =>
    intro s t hs ht
    injection ht with ht
    exact ht ▸ hs
  | succ k ih =>
    intro s t hs ht
    rw [core_run_succ] at ht
    exact ih _ _ (h _ _ hs (step_eq s)) ht

end Sys2Proof.Machine
end

