-- ==== Sys2Proof/Tests/Slice0.lean ====
section
/-! SUPPORT. The model's own tests: one step or one function each, the expected values from spec/ (95_test_vectors.md and the
rule named), then a witness for every statement with hypotheses. -/

namespace Sys2Proof.Machine

/-! ## Well-formedness -/

/-- R70: a frame is exactly five bytes. -/
theorem test_wire_frame_is_five_bytes :
    isWireFrame [1, 0, 0, 0, 0] = true ∧ isWireFrame [1, 0, 0, 0] = false ∧ isWireFrame [1, 0, 0, 0, 0, 0] = false := by
  decide

/-- R95: a residue is one to three bytes. -/
theorem test_residue_is_one_to_three_bytes :
    isResidue [] = false ∧ isResidue [1] = true ∧ isResidue [1, 2, 3] = true ∧ isResidue [1, 2, 3, 4] = false := by
  decide

/-- R128: `INVALID` is no command. -/
theorem test_invalid_is_not_sendable :
    (Instr.invalid 0).isSendable = false ∧ (Instr.echo 0).isSendable = true ∧ (Instr.jump 0).isSendable = true := by
  decide

/-! ## Decoding: words written out bit by bit (30_encoding.md, 41_frame_commands.md, 95_test_vectors.md sections 1.2, 2.6) -/

/-- R120, its example. -/
theorem test_decode_invalid :
    decodeBytes [0b00000000#8, 0b00000000#8, 0b00000000#8, 0b00000001#8, 0b00000000#8] =
      .ok (.invalid 0x00000100#32, []) := by rfl

/-- R121, its example, with a byte left over. -/
theorem test_decode_echo :
    decodeBytes [0b00000001#8, 0b00000000#8, 0b00000000#8, 0b00000000#8, 0b00000000#8, 0x02#8] =
      .ok (.echo 0x00000000#32, [0x02#8]) := by rfl

/-- R122; 95_test_vectors.md section 2.5. -/
theorem test_decode_setsize :
    decodeBytes [0b00000010#8, 0b00000001#8, 0b00000010#8, 0b00000011#8, 0b00000100#8] =
      .ok (.setsize 0x01020304#32, []) := by rfl

/-- R123, its example. -/
theorem test_decode_update :
    decodeBytes [0b00000011#8, 0b00000000#8, 0b00000000#8, 0b00000000#8, 0b00000000#8] =
      .ok (.update 0x00000000#32, []) := by rfl

/-- R124; 95_test_vectors.md section 2.5. -/
theorem test_decode_check :
    decodeBytes [0b00000100#8, 0b10000000#8, 0b00000000#8, 0b00000000#8, 0b00000001#8] =
      .ok (.check 0x80000001#32, []) := by rfl

/-- R125; 95_test_vectors.md section 2.5. -/
theorem test_decode_jump :
    decodeBytes [0b00000101#8, 0b00001000#8, 0b00000000#8, 0b01000000#8, 0b00000000#8] =
      .ok (.jump 0x08004000#32, []) := by rfl

/-- R126, its corner cases; R70: four bytes are no frame. -/
theorem test_decode_rejects_by_name :
    decodeBytes [0x06#8, 0xDE#8, 0xAD#8, 0xBE#8, 0xEF#8] = .error (.reserved 0x06#8 0xDEADBEEF#32) ∧
    decodeBytes [0xFF#8, 0xFF#8, 0xFF#8, 0xFF#8, 0xFF#8] = .error (.reserved 0xFF#8 0xFFFFFFFF#32) ∧
    decodeBytes [0x02#8, 0x00#8, 0x00#8, 0x01#8] = .error (.short 4) ∧ decodeBytes [] = .error (.short 0) :=
  ⟨rfl, rfl, rfl, rfl⟩

/-- R122: the source's frame vector. -/
theorem test_encode_setsize : encode (.setsize 0x100#32) = [0x02#8, 0x00#8, 0x00#8, 0x01#8, 0x00#8] := by decide

/-- R74: the rows' `match` values, numbered as the opcode table numbers them. -/
theorem test_table_words :
    decodeTableWord 40 0x0000000000 = some (.invalid 0) ∧ decodeTableWord 40 0x0100000000 = some (.echo 0) ∧
    decodeTableWord 40 0x0200000100 = some (.setsize 0x100) ∧ decodeTableWord 40 0x0300000000 = some (.update 0) ∧
    decodeTableWord 40 0x0404F1F147 = some (.check 0x04F1F147) ∧
    decodeTableWord 40 0x0508004000 = some (.jump 0x08004000) ∧ decodeTableWord 40 0x0600000000 = none := by
  refine ⟨rfl, rfl, rfl, rfl, rfl, rfl, rfl⟩

/-! ## Running a wire instruction first after reset -/

/-- The frames that a step from `State.reset` delivers, with the table word placed (95_test_vectors.md section 2.6). -/
def deliveredFirst (w : Nat) : List (Op × OpResult) :=
  match step (State.reset.withFetchWord 40 w) with
  | .next t => t.transcript
  | .fault _ => []
  | .refused _ => []

theorem test_run_invalid :
    deliveredFirst 0x0000000100 = [(.decByte 0x00#8, .frame ⟨0x00#8, 0x00000100#32, .invalid⟩)] := by rfl

theorem test_run_echo :
    deliveredFirst 0x0100000000 = [(.decByte 0x00#8, .frame ⟨0x01#8, 0x00000000#32, .echo⟩)] := by rfl

theorem test_run_setsize :
    deliveredFirst 0x0201020304 = [(.decByte 0x04#8, .frame ⟨0x02#8, 0x01020304#32, .setsize⟩)] := by rfl

theorem test_run_update :
    deliveredFirst 0x0300000000 = [(.decByte 0x00#8, .frame ⟨0x03#8, 0x00000000#32, .update⟩)] := by rfl

theorem test_run_check :
    deliveredFirst 0x0404F1F147 = [(.decByte 0x47#8, .frame ⟨0x04#8, 0x04F1F147#32, .check⟩)] := by rfl

theorem test_run_jump :
    deliveredFirst 0x0508004000 = [(.decByte 0x00#8, .frame ⟨0x05#8, 0x08004000#32, .jump⟩)] := by rfl

/-- R126: a Reserved frame runs too. -/
theorem test_run_reserved :
    deliveredFirst 0x06DEADBEEF = [(.decByte 0xEF#8, .frame ⟨0x06#8, 0xDEADBEEF#32, .reserved⟩)] := by rfl

/-! ## The algorithm (95_test_vectors.md sections 1.1, 2.1 to 2.3) -/

theorem test_crc_shift :
    crcShift1 0x80000000#32 POLY = 0x04C11DB7#32 ∧ crcShift1 0xC0000000#32 POLY = 0x84C11DB7#32 ∧
    crcShift1 0x7FFFFFFF#32 POLY = 0xFFFFFFFE#32 ∧ crcShift1 0x82608EDB#32 POLY = 0x00000001#32 := by decide

theorem test_crc_word :
    crcWord 0#32 0x00000001#32 POLY = 0x04C11DB7#32 ∧ crcWord 0#32 0x80000000#32 POLY = 0xA6E63D1D#32 ∧
    crcWord 0xFFFFFFFF#32 0x12345678#32 POLY = 0xDF8A8A2B#32 := by decide +kernel

theorem test_checksum_other_parameters :
    computeChecksum [0x12345678#32] 0#32 POLY = 0x188E5750#32 ∧
    computeChecksum [0x12345678#32] INIT 0x1EDC6F41#32 = 0x57E25AD4#32 := by decide +kernel

/-- The byte-serial check value of `"123456789"` (section 2.3). -/
theorem test_crc_byte_serial :
    [0x31#8, 0x32#8, 0x33#8, 0x34#8, 0x35#8, 0x36#8, 0x37#8, 0x38#8, 0x39#8].foldl (crcByteSerial · · POLY) INIT =
      0x0376E6E7#32 := by decide +kernel

/-- R94, R95 (section 2.4). -/
theorem test_words_of_bytes :
    wordsOfBytes .little [0x78, 0x56, 0x34, 0x12, 0xAA, 0xBB] = ([0x12345678#32], [0xAA, 0xBB]) ∧
    wordsOfBytes .big [0x78, 0x56, 0x34, 0x12, 0xAA, 0xBB] = ([0x78563412#32], [0xAA, 0xBB]) ∧
    padTail .little [0xAA, 0xBB] = 0x0000BBAA#32 ∧ padTail .big [0xAA, 0xBB] = 0xAABB0000#32 := by decide

/-! ## One operation at a time (95_test_vectors.md section 3: programs P2, P2b, P3, P5) -/

/-- A state with the given registers. -/
def testState (crc : Word) (pkBuf : BitVec 24) (pkCnt : BitVec 2) (encSr : FrameValue) (encCnt : BitVec 3)
    (decSr : Word) (decCnt : BitVec 3) (config : Config) : State :=
  { crc, pkBuf, pkCnt, encSr, encCnt, decSr, decCnt, config, pending := [], transcript := [] }

/-- After `P2b` step 12: two residue bytes. -/
def residueState (c : Config) : State := testState 0x04F1F147#32 0x09BBAA#24 2#2 0#40 0#3 0#32 0#3 c

/-- A frame half emitted and a frame almost received (`P3` steps 12 and 15). -/
def busyState : State := testState INIT 0#24 0#2 0x0100000000#40 2#3 0x02000001#32 4#3 Config.default

/-- One operation's result, and the engine's three registers after it. -/
def engineAfter (o : Op) (s : State) : List OpResult × Word × BitVec 24 × BitVec 2 :=
  match perform o s with
  | .next t => (resultsAfter 0 t.transcript, t.crc, t.pkBuf, t.pkCnt)
  | .fault _ => ([], s.crc, s.pkBuf, s.pkCnt)
  | .refused _ => ([], s.crc, s.pkBuf, s.pkCnt)

/-- One operation's result, and the four registers of the Encoder and the Decoder after it. -/
def frameAfter (o : Op) (s : State) : List OpResult × FrameValue × BitVec 3 × Word × BitVec 3 :=
  match perform o s with
  | .next t => (resultsAfter 0 t.transcript, t.encSr, t.encCnt, t.decSr, t.decCnt)
  | .fault _ => ([], s.encSr, s.encCnt, s.decSr, s.decCnt)
  | .refused _ => ([], s.encSr, s.encCnt, s.decSr, s.decCnt)

theorem test_crc_byte_joins_the_residue :
    engineAfter (.crcByte 0xBA#8) (testState 0xDF8A8A2B#32 0x3456F6#24 1#2 0#40 0#3 0#32 0#3 Config.default) =
      ([.done], 0xDF8A8A2B#32, 0x34BAF6#24, 2#2) := by decide

theorem test_crc_byte_completes_a_word :
    engineAfter (.crcByte 0x12#8) (testState INIT 0x345678#24 3#2 0#40 0#3 0#32 0#3 ⟨.little, .refuse⟩) =
        ([.done], 0xDF8A8A2B#32, 0x345678#24, 0#2) ∧
      engineAfter (.crcByte 0x12#8) (testState INIT 0x345678#24 3#2 0#40 0#3 0#32 0#3 ⟨.big, .refuse⟩) =
        ([.done], 0xAD37D056#32, 0x345678#24, 0#2) := by decide +kernel

theorem test_crc_word_refused_while_residue :
    engineAfter (.crcWord 1#32) (residueState Config.default) =
      ([.refused .wordWhileResidue], 0x04F1F147#32, 0x09BBAA#24, 2#2) := by decide

theorem test_crc_flush_refuse_and_drop :
    engineAfter .crcFlush (residueState ⟨.little, .refuse⟩) =
        ([.refused .tailResidue], 0x04F1F147#32, 0x09BBAA#24, 2#2) ∧
      engineAfter .crcFlush (residueState ⟨.little, .drop⟩) = ([.done], 0x04F1F147#32, 0x09BBAA#24, 0#2) := by decide

theorem test_crc_flush_zero_pad :
    engineAfter .crcFlush (residueState ⟨.little, .zeroPad⟩) = ([.done], 0x5E57CBE9#32, 0x09BBAA#24, 0#2) := by
  decide +kernel

theorem test_crc_read_with_residue :
    engineAfter .crcRead (residueState Config.default) =
      ([.word 0x04F1F147#32], 0x04F1F147#32, 0x09BBAA#24, 2#2) := by decide

theorem test_crc_init_discards_the_residue :
    engineAfter .crcInit (residueState Config.default) = ([.done], 0xFFFFFFFF#32, 0#24, 0#2) := by decide

theorem test_enc_load :
    frameAfter (.encLoad 0x02#8 0x100#32) State.reset = ([.done], 0x0200000100#40, 5#3, 0#32, 0#3) ∧
      frameAfter (.encLoad 0x06#8 0#32) State.reset = ([.refused .badOpcode], 0#40, 0#3, 0#32, 0#3) := by decide

/-- R183: `BadOpcode` is checked first. -/
theorem test_enc_load_while_busy :
    frameAfter (.encLoad 0x03#8 0#32) busyState =
        ([.refused .encoderBusy], 0x0100000000#40, 2#3, 0x02000001#32, 4#3) ∧
      frameAfter (.encLoad 0x00#8 0#32) busyState =
        ([.refused .badOpcode], 0x0100000000#40, 2#3, 0x02000001#32, 4#3) := by decide

theorem test_enc_pop :
    frameAfter .encPop busyState = ([.byte 0x01#8], 0x0000000000#40, 1#3, 0x02000001#32, 4#3) ∧
      frameAfter .encPop State.reset = ([.refused .encoderIdle], 0#40, 0#3, 0#32, 0#3) := by decide

theorem test_dec_byte :
    frameAfter (.decByte 0x01#8) (testState INIT 0#24 0#2 0#40 1#3 0x00020000#32 3#3 Config.default) =
        ([.nothing], 0#40, 1#3, 0x02000001#32, 4#3) ∧
      frameAfter (.decByte 0x00#8) busyState =
        ([.frame ⟨0x02#8, 0x00000100#32, .setsize⟩], 0x0100000000#40, 2#3, 0x02000001#32, 0#3) := by decide

theorem test_dec_sync :
    frameAfter .decSync (testState INIT 0#24 0#2 0#40 0#3 0x03000000#32 1#3 Config.default) =
      ([.done], 0#40, 0#3, 0x03000000#32, 0#3) := by decide

theorem test_reset :
    engineAfter .reset (residueState Config.default) = ([.done], 0xFFFFFFFF#32, 0#24, 0#2) ∧
      frameAfter .reset busyState = ([.done], 0#40, 0#3, 0#32, 0#3) := by decide

/-- R31: the status values of a state with a residue, a busy Encoder and half a frame. -/
theorem test_status_values :
    (residueState Config.default).crcResidue = true ∧ busyState.encBusy = true ∧ busyState.decMidframe = true ∧
      State.reset.crcResidue = false ∧ State.reset.encBusy = false ∧ State.reset.decMidframe = false := by decide

/-! ## The environment (44_protocol_context.md; 95_test_vectors.md section 1.4) -/

/-- S12: `L = 1025` and `L = 0`. -/
theorem test_chunk_count : chunkCount 0 = 0 ∧ chunkCount 1 = 1 ∧ chunkCount 1024 = 1 ∧ chunkCount 1025 = 2 := by decide

/-- Text that the device sends at one time, with its newline. -/
def sends (ms : Nat) (text : String) : List Arrival := (text.toList ++ ['\n']).map (fun c => ⟨ms, c⟩)

/-- A transport with nothing received yet, and a run of it in a stage, the block idle. -/
def testRun (stage : Stage) (image : List Byte) (session : Option TransferSession) : Orchestrator :=
  ⟨⟨100, 500⟩, stage, image, session, State.reset, ⟨0, [], []⟩, [], [], [], none⟩

/-- R151: a line at its newline, none before it. -/
theorem test_read_line :
    (Transport.readLine ⟨0, ['a'], sends 30 "b"⟩ 100).result = .line ['a', 'b', '\n'] ∧
      (Transport.readLine ⟨0, ['a'], sends 30 "b"⟩ 29) = ⟨.noLine, ⟨29, ['a'], sends 30 "b"⟩⟩ := by decide +kernel

/-- R151, R208: what has arrived is discarded, what has not stays. -/
theorem test_discard_input :
    Transport.discardInput ⟨10, ['x'], sends 10 "y" ++ sends 11 "z"⟩ = ⟨10, [], sends 11 "z"⟩ := by decide +kernel

/-- S13, and the strict boundary of R153: at 5000 ms in time, at 5001 ms late; 100 ms per read. -/
theorem test_await :
    let inTime := Transport.await ⟨0, [], sends 10 "x" ++ sends 5000 "OK!"⟩ ⟨100, 0⟩ successToken 5000
    let late := Transport.await ⟨0, [], sends 10 "x" ++ sends 5001 "OK!"⟩ ⟨100, 0⟩ successToken 5000
    inTime.outcome = .matched ∧ inTime.lines = [['x', '\n'], ['O', 'K', '!', '\n']] ∧
      late.outcome = .timedOut ∧ 5000 < late.after.nowMs := by decide +kernel

/-- S15: `"FAIL"` at the verify stage. -/
theorem test_failed_verification :
    let o := (testRun .verifying [] (some ⟨0, 0, 0⟩)).act (.proceed (sends 7 "FAIL"))
    o.stage = .failed ∧ o.error = some .checksumMismatch ∧ o.exitCode = 1 ∧ o.session = none := by decide +kernel

/-- R156: the settle delay after the handshake, answered at 20 ms. -/
theorem test_settle_delay :
    let o := (testRun .init [] none).act (.proceed (sends 20 "Bootloader ready"))
    o.stage = .ready ∧ o.transport.nowMs = 520 ∧ o.written = [0x01#8, 0x00#8, 0x00#8, 0x00#8, 0x00#8] := by
  decide +kernel

/-- R156: an acknowledged chunk is counted and reported. -/
theorem test_progress :
    ((testRun .streaming [1, 2, 3, 4] (some ⟨4, 0, 0⟩)).act (.proceed (sends 1 "OK!"))).progress = [⟨4, 4, 1⟩] := by
  decide +kernel

/-! ## Witnesses: states and operands that meet the hypotheses of each statement, clause by clause -/

theorem witness_CrcShiftActsBitwise : (0 : Nat) < 32 ∧ (31 : Nat) < 32 := by decide

theorem witness_EngineObeysTheXorLaws : [1#32, 2#32].length = [3#32, 4#32].length := by decide

theorem witness_WholeImageChecksumIsByteSerial :
    ([] : List Byte).length % 4 = 0 ∧ [0x78#8, 0x56#8, 0x34#8, 0x12#8].length % 4 = 0 := by decide

theorem witness_AbsorbingAWordIsABijection :
    POLY.getLsbD 0 = true ∧ (1#32).getLsbD 0 = true ∧ 0x12345678#32 ≠ 0x8E09BAF6#32 ∧ State.reset.pkCnt = 0#2 := by
  decide

theorem witness_WordsOfBytesGroupsByFour :
    0 < [0x78#8, 0x56#8, 0x34#8, 0x12#8, 0xAA#8].length / 4 ∧
      ¬ 1 < [0x78#8, 0x56#8, 0x34#8, 0x12#8, 0xAA#8].length / 4 := by decide

theorem witness_PadTailAppendsZeroBytes : isResidue [0xAA#8] = true ∧ isResidue [0xAA#8, 0xBB#8, 0xCC#8] = true := by
  decide

theorem witness_CrcWordAbsorbsOrRefuses :
    State.reset.pkCnt = 0#2 ∧ (residueState Config.default).pkCnt ≠ 0#2 ∧
      { State.reset with pkCnt := 1#2 }.pkCnt ≠ 0#2 ∧ { State.reset with pkCnt := 3#2 }.pkCnt ≠ 0#2 := by decide

theorem witness_CrcByteFillsThePacker :
    State.reset.pkCnt ≠ 3#2 ∧ (residueState Config.default).pkCnt ≠ 3#2 ∧
      { State.reset with pkCnt := 3#2 }.pkCnt = 3#2 := by decide

theorem witness_FourBytesActAsOneWord : State.reset.pkCnt = 0#2 := by decide

theorem witness_CrcFlushFollowsTailPolicy :
    State.reset.pkCnt = 0#2 ∧ (residueState ⟨.little, .refuse⟩).pkCnt ≠ 0#2 ∧
      (residueState ⟨.big, .drop⟩).pkCnt ≠ 0#2 ∧ (residueState ⟨.big, .zeroPad⟩).pkCnt ≠ 0#2 ∧
      (residueState ⟨.big, .zeroPad⟩).config.tailPolicy = .zeroPad := by decide

theorem witness_ChecksumBytesFollowsTailPolicy :
    (wordsOfBytes .little []).2 = [] ∧ (wordsOfBytes .little [1, 2, 3, 4]).2 = [] ∧
      (wordsOfBytes .big [1]).2 ≠ [] ∧ (wordsOfBytes .big [1, 2, 3, 4, 5, 6, 7]).2 ≠ [] := by decide

theorem witness_EncodeIsFiveBytesAndInjective :
    isCommand 0x01#8 = true ∧ isCommand 0x05#8 = true ∧ isCommand 0x00#8 = false ∧ isCommand 0x06#8 = false ∧
      isCommand 0xFF#8 = false ∧
      encodeCommand 0x02#8 0x100#32 = some [0x02#8, 0x00#8, 0x00#8, 0x01#8, 0x00#8] := by decide

theorem witness_EncLoadAcceptsCommandsWhenIdle :
    ¬ (1 ≤ (0x00#8).toNat ∧ (0x00#8).toNat ≤ 5) ∧ ¬ (1 ≤ (0x06#8).toNat ∧ (0x06#8).toNat ≤ 5) ∧
      (1 ≤ (0x01#8).toNat ∧ (0x01#8).toNat ≤ 5) ∧ (1 ≤ (0x05#8).toNat ∧ (0x05#8).toNat ≤ 5) ∧
      busyState.encCnt ≠ 0#3 ∧ State.reset.encCnt = 0#3 := by decide

theorem witness_EncPopEmitsTheTopByte : State.reset.encCnt = 0#3 ∧ busyState.encCnt ≠ 0#3 := by decide

theorem witness_SendEmitsTheFiveBytes :
    (isCommand 0x01#8 = true ∧ State.reset.encCnt = 0#3) ∧ (isCommand 0x05#8 = true ∧ State.reset.encCnt = 0#3) ∧
      isCommand 0x00#8 = false ∧ busyState.encCnt ≠ 0#3 := by decide

theorem witness_ClassOfPartitionsTheOpcodes :
    6 ≤ (0x06#8).toNat ∧ 6 ≤ (0xFF#8).toNat ∧ isCommand 0x01#8 = true ∧ isCommand 0x05#8 = true := by decide

theorem witness_OpcodeRowsAreDisjointAndCoverTheNamed :
    ((0x05FFFFFFFF#40).extractLsb' 32 8).toNat ≤ 5 ∧ ¬ ((0x0600000000#40).extractLsb' 32 8).toNat ≤ 5 := by decide

theorem witness_EncodeAndDecodeFramesRoundTrip :
    encodeCommand 0x02#8 0x100#32 = some [0x02#8, 0x00#8, 0x00#8, 0x01#8, 0x00#8] ∧
      decodeFrame [0x02#8, 0x00#8, 0x00#8, 0x01#8, 0x00#8] = some ⟨0x02#8, 0x100#32, .setsize⟩ ∧
      decodeFrame [0x06#8, 0xDE#8, 0xAD#8, 0xBE#8, 0xEF#8] = some ⟨0x06#8, 0xDEADBEEF#32, .reserved⟩ := by decide

theorem witness_DecodeAndEncodeInstructionsAgree :
    decodeBytes (encode (.jump 0x08004000#32) ++ [0x01#8]) = .ok (.jump 0x08004000#32, [0x01#8]) := by rfl

/-- One row of the statement's list and a state with an idle Encoder. -/
theorem witness_EveryCommandIsSentAndDelivered :
    (0x01#8, Instr.echo, FrameClass.echo) ∈
        ([(0x01#8, Instr.echo, FrameClass.echo), (0x02#8, Instr.setsize, FrameClass.setsize),
          (0x03#8, Instr.update, FrameClass.update), (0x04#8, Instr.check, FrameClass.check),
          (0x05#8, Instr.jump, FrameClass.jump)] : List (Byte × (Word → Instr) × FrameClass)) ∧
      State.reset.encCnt = 0#3 := ⟨List.mem_cons_self, rfl⟩

/-- The first and the last reserved opcode, with their last byte pending. -/
theorem witness_ReservedOpcodesAreDeliveredIntact :
    6 ≤ (0x06#8).toNat ∧ 6 ≤ (0xFF#8).toNat ∧
      let s := State.reset.withFetchWord 40 0x06DEADBEEF
      s.decCnt = 4#3 ∧ s.decSr = 0x06#8 ++ (0xDEADBEEF#32).extractLsb' 8 24 ∧
        s.pending = .decByte ((0xDEADBEEF#32).extractLsb' 0 8) :: [] := by decide

theorem witness_ExecChangesOnlyTheFrameBoundary :
    ∃ t, exec (.check 0x04F1F147#32) busyState = .next t := ⟨_, rfl⟩

theorem witness_StepRunsTheDecodedInstruction :
    let s := State.reset.withFetchWord 40 0x0404F1F147
    s.pending = .decByte 0x47#8 :: [] ∧ 4#3 ≤ s.decCnt ∧
      decodeBytes [wordByte s.decSr 3, wordByte s.decSr 2, wordByte s.decSr 1, wordByte s.decSr 0, 0x47#8] =
        .ok (.check 0x04F1F147#32, []) := ⟨rfl, by decide, rfl⟩

theorem witness_PlacedTableWordRunsNext : decodeTableWord 40 0x0300000000 = some (.update 0#32) := by rfl

theorem witness_DecByteDeliversOnTheFifthByte :
    State.reset.decCnt.toNat < 4 ∧ { State.reset with decCnt := 3#3 }.decCnt.toNat < 4 ∧
      4 ≤ busyState.decCnt.toNat := by decide

/-- From three bytes held: the byte before the last of a group (`j = 0`), and the last (`j = 1`). -/
theorem witness_ReceiveDecodesGroupsOfFive :
    { State.reset with decCnt := 3#3 }.countsLegal ∧ busyState.countsLegal ∧
      0 < [0x01#8, 0x02#8].length ∧ ({ State.reset with decCnt := 3#3 }.decCnt.toNat + 0 + 1) % 5 ≠ 0 ∧
      1 < [0x01#8, 0x02#8].length ∧ ({ State.reset with decCnt := 3#3 }.decCnt.toNat + 1 + 1) % 5 = 0 := by decide

theorem witness_ReceivingFramesDeliversThemInOrder : State.reset.decCnt = 0#3 := by decide

/-- Each of the five reasons is some operation's answer. -/
theorem witness_RefusalsAreExactlyTheFive :
    (engineAfter (.crcWord 1#32) (residueState Config.default)).1 = [.refused .wordWhileResidue] ∧
      (engineAfter .crcFlush (residueState Config.default)).1 = [.refused .tailResidue] ∧
      (frameAfter (.encLoad 0xFF#8 0#32) busyState).1 = [.refused .badOpcode] ∧
      (frameAfter (.encLoad 0x05#8 0#32) busyState).1 = [.refused .encoderBusy] ∧
      (frameAfter .encPop State.reset).1 = [.refused .encoderIdle] := by decide

theorem witness_StepPerformsOneOperation :
    { State.reset with pending := [.crcRead, .encPop] }.pending = .crcRead :: [.encPop] ∧ State.reset.pending = [] := by
  decide

theorem witness_PendingOperationsRunInOrder :
    ∃ t : State, performAll (send 0x01#8 0#32) { State.reset with pending := [.crcRead] } = .next t ∧
      noRefusal (t.transcript.drop State.reset.transcript.length) = true := ⟨_, rfl, by decide⟩

/-- One operation of each unit, with its next state. -/
theorem witness_UnitsShareNoRegister :
    (∃ t, perform (.crcByte 1#8) busyState = .next t) ∧ (Op.crcByte 1#8).unit = some .engine ∧
      (∃ t, perform .encPop busyState = .next t) ∧ Op.encPop.unit = some .encoder ∧
      (∃ t, perform (.decByte 1#8) busyState = .next t) ∧ (Op.decByte 1#8).unit = some .decoder :=
  ⟨⟨_, rfl⟩, rfl, ⟨_, rfl⟩, rfl, ⟨_, rfl⟩, rfl⟩

theorem witness_OperationsOfDifferentUnitsCommute :
    Op.crcRead.unit ≠ none ∧ Op.encPop.unit ≠ none ∧ Op.crcRead.unit ≠ Op.encPop.unit := by decide

/-- Two different states that agree on all that an operation reads. -/
theorem witness_UnreadBitsAreUnobservable :
    let s := testState INIT 0x0000AA#24 1#2 0x0100000000#40 1#3 0x00000007#32 1#3 Config.default
    let s' := testState INIT 0x3456AA#24 1#2 0x01FFFFFFFF#40 1#3 0x12345607#32 1#3 Config.default
    s ≠ s' ∧ sameReadable s s' ∧ s.countsLegal ∧ ∃ t, step s = .next t := by
  refine ⟨by decide, ?_, by decide, _, rfl⟩
  simp only [sameReadable]
  decide

/-- The counts at the ends of their ranges, with an operation pending. -/
theorem witness_EveryStepKeepsCountsLegal :
    let s : State := { State.reset with encCnt := 5#3, decCnt := 4#3, pending := [.encPop] }
    s.countsLegal ∧ ∃ t, step s = .next t := ⟨by decide, _, rfl⟩

theorem witness_ReachableCountsAreLegal :
    ∃ t, core.run 3 { State.reset with
      config := ⟨.big, .drop⟩, pending := [.crcByte 1#8, .encLoad 0x01#8 0#32, .decByte 0x05#8] } = .next t := ⟨_, rfl⟩

/-- Two residue bytes given since `CRC_INIT`, a third pending. -/
theorem witness_EveryStepKeepsTheChecksumOfTheImage :
    let s : State := { State.reset with
      pkBuf := 0x00BBAA#24, pkCnt := 2#2, pending := [.crcByte 0xCC#8]
      transcript := [(.crcInit, .done), (.crcByte 0xAA#8, .done), (.crcByte 0xBB#8, .done)] }
    s.engineAgrees ∧ ∃ t, step s = .next t := by
  refine ⟨?_, _, rfl⟩
  simp only [State.engineAgrees]
  decide

/-- `ECHO(0)` accepted and its first byte emitted, the second pending. -/
theorem witness_EveryStepKeepsFramesWholeAndInOrder :
    let s : State := { State.reset with
      encSr := 0#40, encCnt := 4#3, pending := [.encPop]
      transcript := [(.encLoad 0x01#8 0#32, .done), (.encPop, .byte 0x01#8)] }
    s.encoderAgrees ∧ ∃ t, step s = .next t := by
  refine ⟨⟨?_, ?_, by decide⟩, _, rfl⟩
  · show ([0x01#8] ++ encRemaining 4 0#40 : List Byte) = _
    decide
  · show ∀ c ∈ [(0x01#8, 0#32)], isCommand c.1 = true
    exact List.forall_mem_singleton.2 rfl

/-- Four bytes of `JUMP(0x00000007)` received, the fifth pending. -/
theorem witness_EveryStepKeepsReceivedBytesAccountedFor :
    let s : State := { State.reset with
      decSr := 0x05000000#32, decCnt := 4#3, pending := [.decByte 0x07#8]
      transcript := [(.decSync, .done), (.decByte 0x05#8, .nothing), (.decByte 0x00#8, .nothing),
        (.decByte 0x00#8, .nothing), (.decByte 0x00#8, .nothing)] }
    s.decoderAgrees ∧ ∃ t, step s = .next t := by
  refine ⟨?_, _, rfl⟩
  simp only [State.decoderAgrees]
  decide

/-- Two chunks, the first one full, the last one of one byte. -/
theorem witness_ChunksCoverTheImage :
    let image : List Byte := List.replicate 1025 0x55#8
    (chunks image)[0]? = some (List.replicate 1024 0x55#8) ∧ 0 + 1 < (chunks image).length ∧
      (chunks image).getLast? = some [0x55#8] := by decide +kernel

/-- A line without the pattern and a read without a line before; then the pattern at the deadline, or a read past it. -/
theorem witness_AwaitMatchesTheFirstLineInTime :
    (∀ e ∈ [(⟨.line ['x', '\n'], ⟨10, [], []⟩⟩ : ReadEvent), ⟨.noLine, ⟨5000, [], []⟩⟩],
      e.after.nowMs ≤ 5000 ∧ ∀ l, e.result = .line l → containsPattern successToken l = false) ∧
      containsPattern successToken ['>', 'O', 'K', '!', '\n'] = true ∧ (Transport.mk 5000 [] []).nowMs ≤ 5000 ∧
      5000 < (⟨.noLine, ⟨5001, [], []⟩⟩ : ReadEvent).after.nowMs := by
  refine ⟨?_, by decide, by decide, by decide⟩
  intro e he
  simp only [List.mem_cons, List.not_mem_nil, or_false] at he
  rcases he with rfl | rfl
  · exact ⟨by decide, fun l hl => by cases hl; decide⟩
  · exact ⟨by decide, fun l hl => by cases hl⟩

/-- An image of one word and an image of none, an idle Encoder; a run of seven transitions, answered between other lines
at times of the device's own, that does not fail; a transport with only stale text. -/
theorem witness_AnsweredRunWritesTheWholeUpdate :
    let inputs := [sends 5 "noise" ++ sends 40 "** Bootloader ready **", sends 700 "OK!", sends 9000 "OK!", [],
      sends 9500 "OK!", sends 10000 "wait" ++ sends 11000 "OK!", sends 11500 "OK!"]
    [0x78#8, 0x56#8, 0x34#8, 0x12#8].length % 4 = 0 ∧ [0x78#8, 0x56#8, 0x34#8, 0x12#8].length < 2 ^ 32 ∧
      ([] : List Byte).length % 4 = 0 ∧ State.reset.encCnt = 0#3 ∧
      inputs.length = chunkCount [0x78#8, 0x56#8, 0x34#8, 0x12#8].length + 6 ∧
      ((Orchestrator.start ⟨100, 500⟩ ⟨0, ['o', 'l', 'd'], []⟩ [0x78#8, 0x56#8, 0x34#8, 0x12#8] State.reset).run
        (inputs.map .proceed)).stage ≠ .failed ∧
      (Transport.mk 0 ['o', 'l', 'd'] []).incoming = [] := by decide +kernel

/-- Each stage's wait, unanswered: no line at all, the other stage's line, a late line; and the three ended runs. -/
theorem witness_UnansweredStageFailsTheRun :
    (testRun .init [] none).error = none ∧
      (Transport.await (Transport.hear ⟨0, [], []⟩ (sends 1 "OK!")) ⟨100, 500⟩ readyPattern 5000).outcome = .timedOut ∧
      (Transport.await (Transport.hear ⟨0, [], []⟩ (sends 1 "Bootloader ready")) ⟨100, 500⟩ successToken 5000).outcome =
        .timedOut ∧
      (Transport.await (Transport.hear ⟨0, [], []⟩ (sends 15001 "OK!")) ⟨100, 500⟩ successToken 15000).outcome =
        .timedOut ∧
      (Transport.await (Transport.hear ⟨0, [], []⟩ []) ⟨100, 500⟩ successToken 10000).outcome = .timedOut ∧
      (Transport.await (Transport.hear ⟨0, [], []⟩ []) ⟨100, 500⟩ successToken 2000).outcome = .timedOut ∧
      (TransferSession.mk 1 0 0).bytesSent < (TransferSession.mk 1 0 0).totalSize ∧
      (TransferSession.mk 1 1 1).totalSize ≤ (TransferSession.mk 1 1 1).bytesSent ∧
      ((testRun .verifying [] none).image.length % 4 = 0) ∧ (⟨.big, .drop⟩ : Config).tailPolicy ≠ .refuse ∧
      (testRun .done [] none).stage = .done ∧ (testRun .failed [] none).stage = .failed ∧
      { testRun .ready [] none with error := some .probeFailure }.error ≠ none := by decide +kernel

/-- A read that returns a line, one that returns none and leaves a character on its way, and a discard that leaves one. -/
theorem witness_ReadLineReturnsWholeLinesOnly :
    (Transport.readLine ⟨0, ['a'], sends 30 "b"⟩ 30).result = .line ['a', 'b', '\n'] ∧
      (Transport.readLine ⟨0, ['a'], sends 30 "b"⟩ 29).result = .noLine ∧
      (Transport.readLine ⟨0, ['a'], [⟨30, 'b'⟩]⟩ 29).after.incoming = ⟨30, 'b'⟩ :: [] ∧
      (Transport.discardInput ⟨10, ['x'], [⟨10, 'y'⟩, ⟨11, 'z'⟩]⟩).incoming = ⟨11, 'z'⟩ :: [] := by decide +kernel

/-- A wait that matches at its deadline, one that times out just past it, both after another line. -/
theorem witness_AwaitEndsByAMatchOrPastTheDeadline :
    (Transport.await ⟨0, [], sends 1 "x" ++ sends 200 "OK!"⟩ ⟨100, 0⟩ successToken 200).outcome = .matched ∧
      (Transport.await ⟨0, [], sends 1 "x" ++ sends 201 "OK!"⟩ ⟨100, 0⟩ successToken 200).outcome = .timedOut ∧
      ['x', '\n'] ∈
        (Transport.await ⟨0, [], sends 1 "x" ++ sends 200 "OK!"⟩ ⟨100, 0⟩ successToken 200).lines.dropLast := by
  decide +kernel

/-- Stage `ready` and another; the first attempt answered, the second, none. -/
theorem witness_FailedProbeAbortsTheRun :
    let heard := (Transport.hear ⟨0, [], []⟩ (sends 1 "OK!")).await ⟨100, 500⟩ successToken 5000
    let unheard := (Transport.hear ⟨0, [], []⟩ []).await ⟨100, 500⟩ successToken 5000
    (testRun .ready [] none).error = none ∧ (testRun .ready [] none).stage = .ready ∧
      (testRun .streaming [] none).stage ≠ .ready ∧ (testRun .ready [] none).block.encCnt = 0#3 ∧
      heard.outcome = .matched ∧ unheard.outcome = .timedOut ∧
      ((unheard.after.hear (sends 6000 "OK!")).await ⟨100, 500⟩ successToken 5000).outcome = .matched ∧
      ((unheard.after.hear []).await ⟨100, 500⟩ successToken 5000).outcome = .timedOut := by decide +kernel

/-- A refused operation, in a state with a residue, a busy Encoder and half a frame. -/
theorem witness_StatusValuesFollowTheCounters :
    ∃ t : State, perform (.encLoad 0x00#8 0#32) busyState = .next t ∧
      t.transcript = busyState.transcript ++ [(.encLoad 0x00#8 0#32, .refused .badOpcode)] := ⟨_, rfl, rfl⟩

end Sys2Proof.Machine
end

section
/-! PROOFS on the state (10_state.md), its operations and invariants. What every operation answers, said once as a
function of the state, and what follows for a refused operation. -/

namespace Sys2Proof.Machine

/-- The answer an operation gives (R33, column "result"; the refusals of R181). -/
def opAnswer (o : Op) (s : State) : OpResult :=
  match o with
  | .reset => .done
  | .crcInit => .done
  | .crcWord _ => if s.pkCnt = 0#2 then .done else .refused .wordWhileResidue
  | .crcByte _ => .done
  | .crcFlush => if s.pkCnt ≠ 0#2 ∧ s.config.tailPolicy = .refuse then .refused .tailResidue else .done
  | .crcRead => .word s.crc
  | .encLoad op _ =>
    if isCommand op = false then .refused .badOpcode
    else if s.encCnt = 0#3 then .done else .refused .encoderBusy
  | .encPop => if s.encCnt = 0#3 then .refused .encoderIdle else .byte (encTopByte s.encSr)
  | .decByte b =>
    if s.decCnt < 4#3 then .nothing
    else .frame { op := wordByte s.decSr 3, arg := decShift s.decSr b, cls := classOf (wordByte s.decSr 3) }
  | .decSync => .done

/-- The transcript grows by the operation and its answer. -/
theorem afterOp_transcript_eq (o : Op) (s : State) :
    (afterOp o s).transcript = s.transcript ++ [(o, opAnswer o s)] := by
  cases o with
  | reset => rfl
  | crcInit => rfl
  | crcByte b => by_cases h : s.pkCnt < 3#2 <;> simp [afterOp, doCrcByte, h, opAnswer]
  | crcRead => rfl
  | decSync => rfl
  | crcWord w =>
    by_cases h : s.pkCnt = 0#2
    · simp [afterOp_crcWord_of_aligned, opAnswer, h]
    · simp [afterOp_crcWord_of_residue, opAnswer, h]
  | crcFlush =>
    by_cases h : s.pkCnt = 0#2
    · simp [afterOp_crcFlush_of_aligned, opAnswer, h]
    · cases hp : s.config.tailPolicy <;> simp [afterOp_crcFlush_of_residue, opAnswer, h, hp]
  | encLoad op arg =>
    by_cases hc : isCommand op = false
    · simp [afterOp_encLoad_of_bad, opAnswer, hc]
    · by_cases h : s.encCnt = 0#3
      · simp [afterOp_encLoad_of_idle, opAnswer, hc, h]
      · simp [afterOp_encLoad_of_busy, opAnswer, hc, h]
  | encPop =>
    by_cases h : s.encCnt = 0#3
    · simp [afterOp_encPop_of_idle, opAnswer, h]
    · simp [afterOp_encPop_of_busy, opAnswer, h]
  | decByte b =>
    by_cases h : s.decCnt < 4#3
    · simp [afterOp_decByte_of_partial, opAnswer, h]
    · simp only [afterOp_decByte_of_full b s h, opAnswer, if_neg h, State.deliver_transcript, wordByte_decShift_zero]

/-- R180: a refused operation leaves its reason and nothing else. -/
theorem afterOp_of_refused (o : Op) (s : State) (reason : RefusalReason) (h : opAnswer o s = .refused reason) :
    afterOp o s = s.refuse o reason := by
  cases o with
  | crcWord w =>
    by_cases hk : s.pkCnt = 0#2
    · simp [opAnswer, hk] at h
    · obtain rfl : RefusalReason.wordWhileResidue = reason := by simpa [opAnswer, hk] using h
      exact afterOp_crcWord_of_residue w s hk
  | crcFlush =>
    by_cases hk : s.pkCnt ≠ 0#2 ∧ s.config.tailPolicy = .refuse
    · obtain rfl : RefusalReason.tailResidue = reason := by simpa [opAnswer, hk] using h
      rw [afterOp_crcFlush_of_residue s hk.1, hk.2]
    · simp [opAnswer, hk] at h
  | encLoad op arg =>
    by_cases hc : isCommand op = false
    · obtain rfl : RefusalReason.badOpcode = reason := by simpa [opAnswer, hc] using h
      exact afterOp_encLoad_of_bad op arg s hc
    · by_cases hb : s.encCnt = 0#3
      · simp [opAnswer, hc, hb] at h
      · obtain rfl : RefusalReason.encoderBusy = reason := by simpa [opAnswer, hc, hb] using h
        exact afterOp_encLoad_of_busy op arg s (by simpa using hc) hb
  | encPop =>
    by_cases hb : s.encCnt = 0#3
    · obtain rfl : RefusalReason.encoderIdle = reason := by simpa [opAnswer, hb] using h
      exact afterOp_encPop_of_idle s hb
    · simp [opAnswer, hb] at h
  | decByte b =>
    by_cases hd : s.decCnt < 4#3 <;> simp only [opAnswer, hd, if_true, if_false, reduceCtorEq] at h
  | reset => cases h
  | crcInit => cases h
  | crcByte b => cases h
  | crcRead => cases h
  | decSync => cases h

end Sys2Proof.Machine
end

section
/-! The checksum of the image given so far (R21 to R23, R92 to R100). -/

namespace Sys2Proof.Machine

@[simp] theorem bufBytes_zero (buf : BitVec 24) : bufBytes buf 0 = [] := rfl

theorem bufBytes_three (buf : BitVec 24) : bufBytes buf 3 = [bufByte buf 0, bufByte buf 1, bufByte buf 2] := rfl

@[simp] theorem length_bufBytes (buf : BitVec 24) (n : Nat) : (bufBytes buf n).length = n := by
  simp [bufBytes]

/-- R98: below three bytes the packer takes one more at its end. -/
theorem bufBytes_afterOp_crcByte_of_partial (b : Byte) (s : State) (h : s.pkCnt < 3#2) :
    bufBytes (afterOp (.crcByte b) s).pkBuf (afterOp (.crcByte b) s).pkCnt.toNat =
      bufBytes s.pkBuf s.pkCnt.toNat ++ [b] := by
  have hlt : s.pkCnt.toNat < 3 := h
  have hsucc : (s.pkCnt + 1#2).toNat = s.pkCnt.toNat + 1 := by bv_omega
  rw [afterOp_crcByte_of_partial b s h, hsucc, bufBytes_setBufByte _ _ _ hlt]

/-- Fewer than four bytes make no word (R94). -/
theorem wordsOfBytes_of_length_lt (order : WordOrder) (bs : List Byte) (h : bs.length < 4) :
    wordsOfBytes order bs = ([], bs) := by
  match bs with
  | [] => rfl
  | [_] => rfl
  | [_, _] => rfl
  | [_, _, _] => rfl
  | _ :: _ :: _ :: _ :: _ => simp only [List.length_cons] at h; omega

/-- R98, R94: the word that the fourth byte completes is the one its four bytes make. -/
theorem wordsOfBytes_packer_append (s : State) (b : Byte) :
    wordsOfBytes s.config.wordOrder (bufBytes s.pkBuf 3 ++ [b]) = ([packedWord s b], []) := rfl

/-- The engine's registers hold the checksum of the words of `h` and the bytes of its residue: `State.engineAgrees` for a
given image. -/
def State.engineHolds (s : State) (h : EngineHistory) : Prop :=
  s.crc = computeChecksum h.words INIT POLY ∧ bufBytes s.pkBuf s.pkCnt.toNat = h.residue

theorem engineAgrees_iff_engineHolds (s : State) :
    s.engineAgrees ↔ s.engineHolds (engineHistory s.config s.transcript) := by
  constructor
  · rintro ⟨hcrc, -, hbuf⟩
    exact ⟨hcrc, hbuf⟩
  · rintro ⟨hcrc, hbuf⟩
    exact ⟨hcrc, by rw [← hbuf, length_bufBytes], hbuf⟩

theorem engineHistory_append (c : Config) (tr : List (Op × OpResult)) (e : Op × OpResult) :
    engineHistory c (tr ++ [e]) = engineEvent c (engineHistory c tr) e := by
  simp [engineHistory]

@[simp] theorem engineEvent_refused (c : Config) (h : EngineHistory) (o : Op) (reason : RefusalReason) :
    engineEvent c h (o, .refused reason) = h := by
  cases o <;> rfl

/-- An operation of the Encoder or the Decoder gives the engine nothing, whatever its answer. -/
theorem engineEvent_of_other_unit (c : Config) (h : EngineHistory) (o : Op) (r : OpResult) (u : BlockUnit)
    (hu : o.unit = some u) (hne : u ≠ .engine) : engineEvent c h (o, r) = h := by
  cases o with
  | reset => cases hu
  | crcInit | crcWord | crcByte | crcFlush | crcRead => exact absurd (Option.some.inj hu).symm hne
  | encLoad | encPop | decByte | decSync => cases r <;> rfl

theorem computeChecksum_snoc (ws : List Word) (w I P : Word) :
    computeChecksum (ws ++ [w]) I P = crcWord (computeChecksum ws I P) w P :=
  computeChecksum_append ws [w] I P

/-- R97: a word joins the image only where the packer is empty. -/
theorem engineHolds_afterOp_crcWord (w : Word) (s : State) (h : EngineHistory) (hs : s.engineHolds h) :
    (afterOp (.crcWord w) s).engineHolds (engineEvent s.config h (.crcWord w, opAnswer (.crcWord w) s)) := by
  by_cases hk : s.pkCnt = 0#2
  · obtain ⟨hcrc, hbuf⟩ := hs
    simp only [opAnswer, hk, if_true]
    rw [afterOp_crcWord_of_aligned w s hk]
    exact ⟨by rw [hcrc]; exact (computeChecksum_snoc ..).symm, hbuf⟩
  · simp only [opAnswer, hk, if_false, engineEvent_refused]
    rw [afterOp_crcWord_of_residue w s hk]
    exact hs

/-- R98: a byte joins the residue, or completes a word. -/
theorem engineHolds_afterOp_crcByte (b : Byte) (s : State) (h : EngineHistory) (hs : s.engineHolds h) :
    (afterOp (.crcByte b) s).engineHolds (engineEvent s.config h (.crcByte b, .done)) := by
  obtain ⟨hcrc, hbuf⟩ := hs
  have hevent : engineEvent s.config h (.crcByte b, .done) =
      ⟨h.words ++ (wordsOfBytes s.config.wordOrder (bufBytes s.pkBuf s.pkCnt.toNat ++ [b])).1,
        (wordsOfBytes s.config.wordOrder (bufBytes s.pkBuf s.pkCnt.toNat ++ [b])).2⟩ := by rw [hbuf]; rfl
  by_cases hk : s.pkCnt < 3#2
  · have hlt : s.pkCnt.toNat < 3 := hk
    have hshort : (bufBytes s.pkBuf s.pkCnt.toNat ++ [b]).length < 4 := by
      rw [List.length_append, length_bufBytes, List.length_singleton]
      omega
    rw [hevent, wordsOfBytes_of_length_lt _ _ hshort]
    refine ⟨?_, bufBytes_afterOp_crcByte_of_partial b s hk⟩
    rw [afterOp_crcByte_of_partial b s hk]
    simpa using hcrc
  · have hfull : s.pkCnt.toNat = 3 := by bv_omega
    rw [hevent, hfull, wordsOfBytes_packer_append, afterOp_crcByte_of_full b s hk]
    exact ⟨by rw [hcrc]; exact (computeChecksum_snoc ..).symm, rfl⟩

/-- R100: without a residue nothing; with one, as `TAIL_POLICY` says. -/
theorem engineHolds_afterOp_crcFlush (s : State) (h : EngineHistory) (hs : s.engineHolds h) :
    (afterOp .crcFlush s).engineHolds (engineEvent s.config h (.crcFlush, opAnswer .crcFlush s)) := by
  obtain ⟨hcrc, hbuf⟩ := hs
  by_cases hk : s.pkCnt = 0#2
  · have hres : h.residue = [] := by rw [← hbuf, hk]; rfl
    rw [afterOp_crcFlush_of_aligned s hk]
    simp [State.engineHolds, engineEvent, opAnswer, hk, hres, hcrc]
  · have hres : h.residue ≠ [] := by
      rw [← List.length_pos_iff, ← hbuf, length_bufBytes]
      bv_omega
    rw [afterOp_crcFlush_of_residue s hk]
    cases hp : s.config.tailPolicy with
    | refuse => simp [State.engineHolds, opAnswer, hk, hp, hcrc, hbuf]
    | drop => simp [State.engineHolds, engineEvent, opAnswer, hp, hcrc]
    | zeroPad => simp [State.engineHolds, engineEvent, opAnswer, hp, hres, hcrc, hbuf, computeChecksum_snoc]

/-- Every operation keeps the engine at the checksum of the image it has been given. -/
theorem engineHolds_afterOp (o : Op) (s : State) (h : EngineHistory) (hs : s.engineHolds h) :
    (afterOp o s).engineHolds (engineEvent s.config h (o, opAnswer o s)) := by
  have hother (u : BlockUnit) (hu : o.unit = some u) (hne : u ≠ .engine) :
      (afterOp o s).engineHolds (engineEvent s.config h (o, opAnswer o s)) := by
    rw [engineEvent_of_other_unit _ _ _ _ u hu hne]
    rcases afterOp_engine_frame o s with ⟨hcrc, hbuf, hcnt⟩ | rfl | rfl | ⟨w, rfl⟩ | ⟨b, rfl⟩ | rfl
    · rw [State.engineHolds, hcrc, hbuf, hcnt]
      exact hs
    all_goals exact absurd hu (by simp [Op.unit, hne.symm])
  cases o with
  | reset => exact ⟨rfl, rfl⟩
  | crcInit => exact ⟨rfl, rfl⟩
  | crcWord w => exact engineHolds_afterOp_crcWord w s h hs
  | crcByte b => exact engineHolds_afterOp_crcByte b s h hs
  | crcFlush => exact engineHolds_afterOp_crcFlush s h hs
  | crcRead => exact hs
  | encLoad op arg => exact hother .encoder rfl (by decide)
  | encPop => exact hother .encoder rfl (by decide)
  | decByte b => exact hother .decoder rfl (by decide)
  | decSync => exact hother .decoder rfl (by decide)

theorem engineAgrees_afterOp (o : Op) (s : State) (hs : s.engineAgrees) : (afterOp o s).engineAgrees := by
  rw [engineAgrees_iff_engineHolds] at hs ⊢
  rw [afterOp_config, afterOp_transcript_eq, engineHistory_append]
  exact engineHolds_afterOp o s _ hs

/-- Settles O48: each operation keeps the engine at the image its answer adds to, and the step performs one. -/
theorem everyStepKeepsTheChecksumOfTheImage : Obligations.EveryStepKeepsTheChecksumOfTheImage :=
  step_keeps State.engineAgrees engineAgrees_afterOp fun _ _ h => h

end Sys2Proof.Machine
end

section
/-! The units share no register (R37): what an operation leaves alone, what it depends on, and that operations of
different units commute. -/

namespace Sys2Proof.Machine

/-- `RESET` is the one operation of no single unit. -/
theorem Op.unit_eq_none_iff (o : Op) : o.unit = none ↔ o = .reset := by
  cases o <;> simp [Op.unit]

/-- Two states agree on the registers of one unit (R20). -/
def sameUnitRegisters (u : BlockUnit) (s t : State) : Prop :=
  match u with
  | .engine => s.crc = t.crc ∧ s.pkBuf = t.pkBuf ∧ s.pkCnt = t.pkCnt
  | .encoder => s.encSr = t.encSr ∧ s.encCnt = t.encCnt
  | .decoder => s.decSr = t.decSr ∧ s.decCnt = t.decCnt

theorem sameUnitRegisters.symm {u : BlockUnit} {s t : State} (h : sameUnitRegisters u s t) :
    sameUnitRegisters u t s := by
  cases u <;> simp_all only [sameUnitRegisters, and_self]

theorem sameUnitRegisters.trans {u : BlockUnit} {s t v : State} (h : sameUnitRegisters u s t)
    (h' : sameUnitRegisters u t v) : sameUnitRegisters u s v := by
  cases u <;> simp_all only [sameUnitRegisters, and_self]

theorem sameRegisters_of_units (s t : State) (h : ∀ u, sameUnitRegisters u s t) : sameRegisters s t := by
  obtain ⟨hcrc, hbuf, hcnt⟩ := h .engine
  obtain ⟨hsr, hn⟩ := h .encoder
  obtain ⟨hdsr, hdn⟩ := h .decoder
  exact ⟨hcrc, hbuf, hcnt, hsr, hn, hdsr, hdn⟩

/-- An operation of one unit leaves the registers of every other as they were. -/
theorem afterOp_leaves_other_units (o : Op) (s : State) (u v : BlockUnit) (hu : o.unit = some u) (hv : u ≠ v) :
    sameUnitRegisters v (afterOp o s) s := by
  have hv' : o.unit ≠ some v := by simpa [hu] using hv
  have hreset : o ≠ .reset := by rintro rfl; cases hu
  cases v with
  | engine =>
    rcases afterOp_engine_frame o s with h | rfl | rfl | ⟨w, rfl⟩ | ⟨b, rfl⟩ | rfl
    · exact h
    · exact absurd rfl hreset
    all_goals exact absurd rfl hv'
  | encoder =>
    rcases afterOp_encoder_frame o s with h | rfl | ⟨op, arg, rfl⟩ | rfl
    · exact h
    · exact absurd rfl hreset
    all_goals exact absurd rfl hv'
  | decoder =>
    rcases afterOp_decoder_frame o s with h | rfl | ⟨b, rfl⟩ | rfl
    · exact h
    · exact absurd rfl hreset
    all_goals exact absurd rfl hv'

/-- An operation's answer depends on the configuration and the registers of its own unit only. -/
theorem opAnswer_congr (o : Op) (s t : State) (u : BlockUnit) (hu : o.unit = some u) (hc : s.config = t.config)
    (h : sameUnitRegisters u s t) : opAnswer o s = opAnswer o t := by
  cases o with
  | reset => cases hu
  | crcInit => rfl
  | crcByte b => rfl
  | decSync => rfl
  | crcWord w =>
    cases hu
    obtain ⟨-, -, hcnt⟩ := h
    simp only [opAnswer, hcnt]
  | crcFlush =>
    cases hu
    obtain ⟨-, -, hcnt⟩ := h
    simp only [opAnswer, hcnt, hc]
  | crcRead =>
    cases hu
    exact congrArg OpResult.word h.1
  | encLoad op arg =>
    cases hu
    simp only [opAnswer, h.2]
  | encPop =>
    cases hu
    simp only [opAnswer, h.1, h.2]
  | decByte b =>
    cases hu
    simp only [opAnswer, h.1, h.2]

/-- What the engine's operations leave in its registers depends on those and on the configuration only. -/
theorem afterOp_engine_congr (o : Op) (s t : State) (hu : o.unit = some .engine) (hc : s.config = t.config)
    (h : sameUnitRegisters .engine s t) : sameUnitRegisters .engine (afterOp o s) (afterOp o t) := by
  obtain ⟨hcrc, hbuf, hcnt⟩ := h
  simp only [sameUnitRegisters]
  cases o with
  | crcInit => exact ⟨rfl, rfl, rfl⟩
  | crcRead => exact ⟨hcrc, hbuf, hcnt⟩
  | crcWord w =>
    by_cases hk : t.pkCnt = 0#2
    · simp [afterOp_crcWord_of_aligned, hk, hcrc, hbuf, hcnt]
    · simp [afterOp_crcWord_of_residue, hk, hcrc, hbuf, hcnt]
  | crcByte b =>
    by_cases hk : t.pkCnt < 3#2
    · simp [afterOp_crcByte_of_partial, hk, hcrc, hbuf, hcnt]
    · simp only [afterOp_crcByte_of_full b t hk, afterOp_crcByte_of_full b s (hcnt ▸ hk), packedWord]
      simp [hcrc, hbuf, hc]
  | crcFlush =>
    by_cases hk : t.pkCnt = 0#2
    · simp [afterOp_crcFlush_of_aligned, hk, hcrc, hbuf, hcnt]
    · cases hp : t.config.tailPolicy <;> simp [afterOp_crcFlush_of_residue, hk, hp, hcrc, hbuf, hcnt, hc]
  | _ => cases hu

/-- What the Encoder's operations leave in its registers depends on those only. -/
theorem afterOp_encoder_congr (o : Op) (s t : State) (hu : o.unit = some .encoder)
    (h : sameUnitRegisters .encoder s t) : sameUnitRegisters .encoder (afterOp o s) (afterOp o t) := by
  obtain ⟨hsr, hn⟩ := h
  simp only [sameUnitRegisters]
  cases o with
  | encLoad op arg =>
    by_cases hbad : isCommand op = false
    · simp [afterOp_encLoad_of_bad, hbad, hsr, hn]
    · by_cases hb : t.encCnt = 0#3
      · simp [afterOp_encLoad_of_idle, hbad, hb, hn]
      · simp [afterOp_encLoad_of_busy, hbad, hb, hsr, hn]
  | encPop =>
    by_cases hb : t.encCnt = 0#3
    · simp [afterOp_encPop_of_idle, hb, hsr, hn]
    · simp [afterOp_encPop_of_busy, hb, hsr, hn]
  | _ => cases hu

/-- What the Decoder's operations leave in its registers depends on those only. -/
theorem afterOp_decoder_congr (o : Op) (s t : State) (hu : o.unit = some .decoder)
    (h : sameUnitRegisters .decoder s t) : sameUnitRegisters .decoder (afterOp o s) (afterOp o t) := by
  obtain ⟨hsr, hn⟩ := h
  simp only [sameUnitRegisters]
  cases o with
  | decByte b =>
    by_cases hd : t.decCnt < 4#3
    · simp [afterOp_decByte_of_partial, hd, hsr, hn]
    · simp [afterOp_decByte_of_full b t hd, afterOp_decByte_of_full b s (hn ▸ hd), hsr]
  | decSync => exact ⟨hsr, rfl⟩
  | _ => cases hu

/-- What an operation leaves in its own unit depends on the configuration and the registers of that unit only. -/
theorem afterOp_congr (o : Op) (s t : State) (u : BlockUnit) (hu : o.unit = some u) (hc : s.config = t.config)
    (h : sameUnitRegisters u s t) : sameUnitRegisters u (afterOp o s) (afterOp o t) := by
  cases u with
  | engine => exact afterOp_engine_congr o s t hu hc h
  | encoder => exact afterOp_encoder_congr o s t hu h
  | decoder => exact afterOp_decoder_congr o s t hu h

/-- The second of two operations of different units leaves in its unit what it would have left alone. -/
theorem afterOp_afterOp_own_unit (o p : Op) (s : State) (u v : BlockUnit) (hu : o.unit = some u) (hv : p.unit = some v)
    (hne : u ≠ v) : sameUnitRegisters v (afterOp p (afterOp o s)) (afterOp p s) :=
  afterOp_congr p _ _ v hv (afterOp_config o s) (afterOp_leaves_other_units o s u v hu hne)

/-- Two operations of different units leave the same registers in either order. -/
theorem afterOp_comm_registers (o p : Op) (s : State) (u v : BlockUnit) (hu : o.unit = some u) (hv : p.unit = some v)
    (hne : u ≠ v) : sameRegisters (afterOp p (afterOp o s)) (afterOp o (afterOp p s)) := by
  apply sameRegisters_of_units
  intro w
  have hp (hw : v ≠ w) (t : State) : sameUnitRegisters w (afterOp p t) t := afterOp_leaves_other_units p t v w hv hw
  have ho (hw : u ≠ w) (t : State) : sameUnitRegisters w (afterOp o t) t := afterOp_leaves_other_units o t u w hu hw
  by_cases hwv : v = w
  · subst hwv
    exact (afterOp_afterOp_own_unit o p s u v hu hv hne).trans (ho hne _).symm
  · by_cases hwu : u = w
    · subst hwu
      exact (hp hwv _).trans (afterOp_afterOp_own_unit p o s v u hv hu hwv).symm
    · exact (hp hwv _).trans ((ho hwu _).trans ((ho hwu _).trans (hp hwv _)).symm)

/-- The second of two operations of different units is answered as it would have been alone. -/
theorem opAnswer_afterOp_of_other_unit (o p : Op) (s : State) (u v : BlockUnit) (hu : o.unit = some u)
    (hv : p.unit = some v) (hne : u ≠ v) : opAnswer p (afterOp o s) = opAnswer p s :=
  opAnswer_congr p _ _ v hv (afterOp_config o s) (afterOp_leaves_other_units o s u v hu hne)

/-- Settles O44: each operation reads and writes the registers of its own unit only. -/
theorem operationsOfDifferentUnitsCommute : Obligations.OperationsOfDifferentUnitsCommute := by
  intro o p s ho hp hne
  obtain ⟨u, hu⟩ := Option.ne_none_iff_exists'.mp ho
  obtain ⟨v, hv⟩ := Option.ne_none_iff_exists'.mp hp
  have huv : u ≠ v := by
    rintro rfl
    exact hne (hu.trans hv.symm)
  refine ⟨afterOp o s, afterOp p (afterOp o s), afterOp p s, afterOp o (afterOp p s), opAnswer o s, opAnswer p s,
    perform_eq _ _, perform_eq _ _, perform_eq _ _, perform_eq _ _, afterOp_comm_registers o p s u v hu hv huv, ?_, ?_⟩
  · simp [afterOp_transcript_eq, opAnswer_afterOp_of_other_unit o p s u v hu hv huv]
  · simp [afterOp_transcript_eq, opAnswer_afterOp_of_other_unit p o s v u hv hu huv.symm]

/-- Settles O43, unit by unit. -/
theorem unitsShareNoRegister : Obligations.UnitsShareNoRegister := by
  intro o s t ht
  obtain rfl := (perform_next_iff o s t).1 ht
  have hleaves (u v : BlockUnit) (hu : o.unit = some u) (hv : u ≠ v) := afterOp_leaves_other_units o s u v hu hv
  refine ⟨fun hu => ?_, fun hu => ?_, fun hu => ?_⟩
  · obtain ⟨hesr, hen⟩ := hleaves .engine .encoder hu (by decide)
    exact ⟨hesr, hen, hleaves .engine .decoder hu (by decide)⟩
  · obtain ⟨hcrc, hbuf, hcnt⟩ := hleaves .encoder .engine hu (by decide)
    exact ⟨hcrc, hbuf, hcnt, hleaves .encoder .decoder hu (by decide)⟩
  · obtain ⟨hcrc, hbuf, hcnt⟩ := hleaves .decoder .engine hu (by decide)
    exact ⟨hcrc, hbuf, hcnt, hleaves .decoder .encoder hu (by decide)⟩

end Sys2Proof.Machine
end

section
/-! The ranges of the counters (R28), the state after reset (R36), the six wire instructions' frame (R37, R142) and the
status values (R31). -/

namespace Sys2Proof.Machine

/-- R132, R133: the Encoder's counter is set to 5 or counts down from a value that is not 0. -/
theorem encCnt_afterOp_le (o : Op) (s : State) (h : s.encCnt ≤ 5#3) : (afterOp o s).encCnt ≤ 5#3 := by
  rcases afterOp_encoder_frame o s with ⟨-, hcnt⟩ | rfl | ⟨op, arg, rfl⟩ | rfl
  · exact hcnt ▸ h
  · exact Nat.zero_le _
  · by_cases hbad : isCommand op = false
    · rw [afterOp_encLoad_of_bad op arg s hbad]
      exact h
    · have hc : isCommand op = true := by simpa using hbad
      by_cases hb : s.encCnt = 0#3
      · rw [afterOp_encLoad_of_idle op arg s hc hb]
        exact Nat.le_refl 5
      · rw [afterOp_encLoad_of_busy op arg s hc hb]
        exact h
  · by_cases hb : s.encCnt = 0#3
    · rw [afterOp_encPop_of_idle s hb]
      exact h
    · rw [afterOp_encPop_of_busy s hb]
      bv_omega

/-- R142, R143: the Decoder's counter counts up below 4 or returns to 0. -/
theorem decCnt_afterOp_le (o : Op) (s : State) (h : s.decCnt ≤ 4#3) : (afterOp o s).decCnt ≤ 4#3 := by
  rcases afterOp_decoder_frame o s with ⟨-, hcnt⟩ | rfl | ⟨b, rfl⟩ | rfl
  · exact hcnt ▸ h
  · exact Nat.zero_le _
  · by_cases hd : s.decCnt < 4#3
    · rw [afterOp_decByte_of_partial b s hd, State.receiveByte_decCnt]
      bv_omega
    · rw [afterOp_decByte_of_full b s hd]
      exact Nat.zero_le _
  · exact Nat.zero_le _

theorem countsLegal_afterOp (o : Op) (s : State) (h : s.countsLegal) : (afterOp o s).countsLegal :=
  ⟨encCnt_afterOp_le o s h.1, decCnt_afterOp_le o s h.2⟩

/-- Settles O46, counter by counter. -/
theorem everyStepKeepsCountsLegal : Obligations.EveryStepKeepsCountsLegal :=
  step_keeps State.countsLegal countsLegal_afterOp fun _ _ h => h

/-- The state after reset, configured and with operations about to be issued, has legal counters. -/
theorem countsLegal_reset (c : Config) (ops : List Op) :
    ({ State.reset with config := c, pending := ops } : State).countsLegal :=
  ⟨Nat.zero_le _, Nat.zero_le _⟩

/-- Settles O47: the legal counters of the state after reset are kept along a run. -/
theorem reachableCountsAreLegal : Obligations.ReachableCountsAreLegal := by
  intro c ops k t ht
  obtain ⟨henc, hdec⟩ :=
    core_run_keeps State.countsLegal everyStepKeepsCountsLegal k _ t (countsLegal_reset c ops) ht
  exact ⟨Nat.le_of_lt_succ t.pkCnt.isLt, henc, hdec⟩

/-- Settles O1: `RESET` is answered in every state, each register at its value of R36. -/
theorem resetSetsAllSevenRegisters : Obligations.ResetSetsAllSevenRegisters := fun s =>
  ⟨afterOp .reset s, perform_eq .reset s, rfl, rfl, rfl, rfl, rfl, rfl, rfl, rfl, rfl, rfl,
    ⟨rfl, rfl, rfl, rfl, rfl, rfl, rfl⟩, rfl, rfl, rfl⟩

/-- Settles O2: nothing has been given, accepted or received, and the counters are 0. -/
theorem initialStateMeetsEveryInvariant : Obligations.InitialStateMeetsEveryInvariant := by
  intro c ops s
  have hengine : s.engineAgrees := ⟨rfl, rfl, rfl⟩
  have hencoder : s.encoderAgrees := ⟨rfl, List.forall_mem_nil _, Nat.zero_le _⟩
  have hdecoder : s.decoderAgrees := ⟨rfl, List.forall_mem_nil _, Nat.zero_le _⟩
  exact ⟨countsLegal_reset c ops, hengine, hencoder, hdecoder⟩

/-- R142: a wire instruction is the delivery of its frame, with the class of its opcode. -/
theorem exec_eq_deliver (i : Instr) (s : State) :
    exec i s = .next (s.deliver { op := i.opcode, arg := i.arg, cls := classOf i.opcode }) := by
  cases i <;> rfl

/-- Settles O32: a delivery writes `DEC_CNT` and the record only. -/
theorem execChangesOnlyTheFrameBoundary : Obligations.ExecChangesOnlyTheFrameBoundary := by
  intro i s t ht
  rw [exec_eq_deliver] at ht
  injection ht with ht
  subst ht
  exact ⟨rfl, rfl, rfl, rfl, rfl, rfl, rfl, rfl, rfl, rfl, rfl, _, State.deliver_transcript s _⟩

/-- Settles O40: the state each step leaves is `afterStep`. -/
theorem everyStepCompletes : Obligations.EveryStepCompletes := fun s => ⟨afterStep s, step_eq s⟩

theorem crcResidue_iff (s : State) : s.crcResidue = true ↔ s.pkCnt.toNat ≠ 0 := by
  simp [State.crcResidue, BitVec.toNat_eq]

theorem encBusy_iff (s : State) : s.encBusy = true ↔ s.encCnt.toNat ≠ 0 := by
  simp [State.encBusy, BitVec.toNat_eq]

theorem decMidframe_iff (s : State) : s.decMidframe = true ↔ s.decCnt.toNat ≠ 0 := by
  simp [State.decMidframe, BitVec.toNat_eq]

/-- Settles O58: the counters decide the status values, and a refusal changes no counter. -/
theorem statusValuesFollowTheCounters : Obligations.StatusValuesFollowTheCounters := by
  refine ⟨fun s => ⟨crcResidue_iff s, encBusy_iff s, decMidframe_iff s⟩, ?_⟩
  intro o s t reason ht htr
  obtain rfl := (perform_next_iff o s t).1 ht
  have hrefused : opAnswer o s = .refused reason := by simpa [afterOp_transcript_eq] using htr
  rw [afterOp_of_refused o s reason hrefused]
  exact ⟨rfl, rfl, rfl⟩

end Sys2Proof.Machine
end

section
/-! The unread bits of the buffers (R22, R24, R26; 93_implementation_defined.md U9): every unit keeps two states that differ
in them only alike. -/

namespace Sys2Proof.Machine

/-- Two states agree on what the operations of one unit read (R21 to R27). -/
def sameUnitReadable (u : BlockUnit) (s t : State) : Prop :=
  match u with
  | .engine => s.crc = t.crc ∧ s.pkCnt = t.pkCnt ∧ bufBytes s.pkBuf s.pkCnt.toNat = bufBytes t.pkBuf t.pkCnt.toNat
  | .encoder => s.encCnt = t.encCnt ∧ encRemaining s.encCnt.toNat s.encSr = encRemaining t.encCnt.toNat t.encSr
  | .decoder => s.decCnt = t.decCnt ∧ decHeld s.decCnt.toNat s.decSr = decHeld t.decCnt.toNat t.decSr

theorem sameReadable_iff (s t : State) :
    sameReadable s t ↔
      (∀ u, sameUnitReadable u s t) ∧ s.config = t.config ∧ s.pending = t.pending ∧ s.transcript = t.transcript := by
  constructor
  · rintro ⟨hcrc, hcnt, hbuf, hn, hsr, hdn, hdsr, hrest⟩
    refine ⟨fun u => ?_, hrest⟩
    cases u with
    | engine => exact ⟨hcrc, hcnt, hbuf⟩
    | encoder => exact ⟨hn, hsr⟩
    | decoder => exact ⟨hdn, hdsr⟩
  · rintro ⟨hunits, hrest⟩
    obtain ⟨hcrc, hcnt, hbuf⟩ := hunits .engine
    obtain ⟨hn, hsr⟩ := hunits .encoder
    obtain ⟨hdn, hdsr⟩ := hunits .decoder
    exact ⟨hcrc, hcnt, hbuf, hn, hsr, hdn, hdsr, hrest⟩

/-- What is readable of a unit is readable of its registers alone. -/
theorem sameUnitReadable.of_same_registers {u : BlockUnit} {s s' t t' : State} (h : sameUnitReadable u s t)
    (hs : sameUnitRegisters u s' s) (ht : sameUnitRegisters u t' t) : sameUnitReadable u s' t' := by
  cases u with
  | engine =>
    obtain ⟨hcrc, hbuf, hcnt⟩ := hs
    obtain ⟨hcrc', hbuf', hcnt'⟩ := ht
    simpa only [sameUnitReadable, hcrc, hbuf, hcnt, hcrc', hbuf', hcnt'] using h
  | encoder =>
    obtain ⟨hsr, hn⟩ := hs
    obtain ⟨hsr', hn'⟩ := ht
    simpa only [sameUnitReadable, hsr, hn, hsr', hn'] using h
  | decoder =>
    obtain ⟨hsr, hn⟩ := hs
    obtain ⟨hsr', hn'⟩ := ht
    simpa only [sameUnitReadable, hsr, hn, hsr', hn'] using h

/-! ### The engine -/

/-- R98: the word completed reads the three bytes held and no other bit. -/
theorem packedWord_congr {s t : State} (b : Byte) (hc : s.config = t.config)
    (hbuf : bufBytes s.pkBuf 3 = bufBytes t.pkBuf 3) : packedWord s b = packedWord t b := by
  simp only [bufBytes_three, List.cons.injEq, and_true] at hbuf
  obtain ⟨h0, h1, h2⟩ := hbuf
  simp only [packedWord, h0, h1, h2, hc]

theorem sameUnitReadable_afterOp_engine (o : Op) (s t : State) (hu : o.unit = some .engine)
    (hc : s.config = t.config) (h : sameUnitReadable .engine s t) :
    sameUnitReadable .engine (afterOp o s) (afterOp o t) := by
  have hst := h
  obtain ⟨hcrc, hcnt, hbuf⟩ := h
  cases o with
  | crcInit => exact ⟨rfl, rfl, rfl⟩
  | crcWord w =>
    by_cases hk : t.pkCnt = 0#2
    · rw [afterOp_crcWord_of_aligned w s (hcnt ▸ hk), afterOp_crcWord_of_aligned w t hk]
      exact ⟨congrArg (crcWord · w POLY) hcrc, hcnt, hbuf⟩
    · rw [afterOp_crcWord_of_residue w s (hcnt ▸ hk), afterOp_crcWord_of_residue w t hk]
      exact hst
  | crcByte b =>
    by_cases hk : t.pkCnt < 3#2
    · have hks : s.pkCnt < 3#2 := hcnt ▸ hk
      have hbytes : bufBytes (afterOp (.crcByte b) s).pkBuf (afterOp (.crcByte b) s).pkCnt.toNat =
          bufBytes (afterOp (.crcByte b) t).pkBuf (afterOp (.crcByte b) t).pkCnt.toNat := by
        rw [bufBytes_afterOp_crcByte_of_partial b s hks, bufBytes_afterOp_crcByte_of_partial b t hk, hbuf]
      refine ⟨?_, ?_, hbytes⟩
      · simpa [afterOp_crcByte_of_partial, hks, hk] using hcrc
      · simp [afterOp_crcByte_of_partial, hk, hcnt]
    · have hfull : t.pkCnt = 3#2 := by bv_omega
      have hword : packedWord s b = packedWord t b := packedWord_congr b hc (by simpa [hcnt, hfull] using hbuf)
      rw [afterOp_crcByte_of_full b s (hcnt ▸ hk), afterOp_crcByte_of_full b t hk, hword]
      exact ⟨congrArg (crcWord · _ POLY) hcrc, rfl, rfl⟩
  | crcFlush =>
    by_cases hk : t.pkCnt = 0#2
    · rw [afterOp_crcFlush_of_aligned s (hcnt ▸ hk), afterOp_crcFlush_of_aligned t hk]
      exact hst
    · rw [afterOp_crcFlush_of_residue s (hcnt ▸ hk), afterOp_crcFlush_of_residue t hk, hc, hbuf, hcrc]
      cases t.config.tailPolicy with
      | refuse => exact hst
      | drop => exact ⟨hcrc, rfl, rfl⟩
      | zeroPad => exact ⟨rfl, rfl, rfl⟩
  | crcRead => exact hst
  | _ => cases hu

/-! ### The Encoder -/

theorem encRemaining_of_ne_zero (n : BitVec 3) (sr : FrameValue) (h : n ≠ 0#3) :
    encRemaining n.toNat sr = encTopByte sr :: encRemaining (n - 1#3).toNat (encShift sr) := by
  have hsucc : n.toNat = (n - 1#3).toNat + 1 := by bv_omega
  rw [hsucc, encRemaining]

/-- R24, R133: while something is to emit, the next byte and what remains after it are readable. -/
theorem sameUnitReadable.encoder_pop {s t : State} (h : sameUnitReadable .encoder s t) (hb : t.encCnt ≠ 0#3) :
    encTopByte s.encSr = encTopByte t.encSr ∧
      encRemaining (s.encCnt - 1#3).toNat (encShift s.encSr) =
        encRemaining (t.encCnt - 1#3).toNat (encShift t.encSr) := by
  obtain ⟨hn, hsr⟩ := h
  rw [encRemaining_of_ne_zero _ _ hb, encRemaining_of_ne_zero _ _ (hn ▸ hb)] at hsr
  exact List.cons.inj hsr

theorem sameUnitReadable_afterOp_encoder (o : Op) (s t : State) (hu : o.unit = some .encoder)
    (h : sameUnitReadable .encoder s t) : sameUnitReadable .encoder (afterOp o s) (afterOp o t) := by
  have hn : s.encCnt = t.encCnt := h.1
  cases o with
  | encLoad op arg =>
    by_cases hbad : isCommand op = false
    · rw [afterOp_encLoad_of_bad op arg s hbad, afterOp_encLoad_of_bad op arg t hbad]
      exact h
    · have hcmd : isCommand op = true := by simpa using hbad
      by_cases hb : t.encCnt = 0#3
      · rw [afterOp_encLoad_of_idle op arg s hcmd (hn ▸ hb), afterOp_encLoad_of_idle op arg t hcmd hb]
        exact ⟨rfl, rfl⟩
      · rw [afterOp_encLoad_of_busy op arg s hcmd (hn ▸ hb), afterOp_encLoad_of_busy op arg t hcmd hb]
        exact h
  | encPop =>
    by_cases hb : t.encCnt = 0#3
    · rw [afterOp_encPop_of_idle s (hn ▸ hb), afterOp_encPop_of_idle t hb]
      exact h
    · rw [afterOp_encPop_of_busy s (hn ▸ hb), afterOp_encPop_of_busy t hb]
      exact ⟨congrArg (· - 1#3) hn, (h.encoder_pop hb).2⟩
  | _ => cases hu

/-! ### The Decoder -/

/-- R26, R142: below four bytes held, the next one joins them at the end. -/
theorem decHeld_decShift (n : Nat) (sr : Word) (b : Byte) (hn : n < 4) :
    decHeld (n + 1) (decShift sr b) = decHeld n sr ++ [b] := by
  simp only [decHeld, List.range_succ, List.map_append, List.map_cons, List.map_nil]
  congr 1
  · apply List.map_congr_left
    intro i hi
    have hi : i < n := by simpa using hi
    rw [show n + 1 - 1 - i = (n - 1 - i) + 1 by omega, wordByte_decShift_succ _ _ _ (by omega)]
  · simp [wordByte_decShift_zero]

/-- Four bytes held are the whole register. -/
theorem decHeld_four_injective (sr sr' : Word) (h : decHeld 4 sr = decHeld 4 sr') : sr = sr' := by
  have hbytes : [wordByte sr 3, wordByte sr 2, wordByte sr 1, wordByte sr 0] =
      [wordByte sr' 3, wordByte sr' 2, wordByte sr' 1, wordByte sr' 0] := h
  simp only [List.cons.injEq, and_true] at hbytes
  obtain ⟨h3, h2, h1, h0⟩ := hbytes
  rw [← wordOfBytes_wordByte sr, h3, h2, h1, h0, wordOfBytes_wordByte]

/-- R26: at the last byte of a frame the whole register is readable. -/
theorem sameUnitReadable.decSr_eq {s t : State} (h : sameUnitReadable .decoder s t) (hfull : t.decCnt = 4#3) :
    s.decSr = t.decSr := by
  obtain ⟨hn, hsr⟩ := h
  rw [hn, hfull] at hsr
  exact decHeld_four_injective _ _ hsr

theorem sameUnitReadable_afterOp_decoder (o : Op) (s t : State) (hu : o.unit = some .decoder)
    (h : sameUnitReadable .decoder s t) : sameUnitReadable .decoder (afterOp o s) (afterOp o t) := by
  obtain ⟨hn, hsr⟩ := h
  cases o with
  | decByte b =>
    by_cases hd : t.decCnt < 4#3
    · have hlt : t.decCnt.toNat < 4 := hd
      have hsucc : (t.decCnt + 1#3).toNat = t.decCnt.toNat + 1 := by bv_omega
      rw [afterOp_decByte_of_partial b s (hn ▸ hd), afterOp_decByte_of_partial b t hd]
      refine ⟨congrArg (· + 1#3) hn, ?_⟩
      rw [hn] at hsr
      simp only [State.receiveByte_decCnt, State.receiveByte_decSr, hn, hsucc, decHeld_decShift _ _ _ hlt, hsr]
    · rw [afterOp_decByte_of_full b s (hn ▸ hd), afterOp_decByte_of_full b t hd]
      exact ⟨rfl, rfl⟩
  | decSync => exact ⟨rfl, rfl⟩
  | _ => cases hu

/-! ### The block -/

/-- Each unit keeps two states alike, whatever is performed. -/
theorem sameUnitReadable_afterOp (o : Op) (s t : State) (u : BlockUnit) (hc : s.config = t.config)
    (h : sameUnitReadable u s t) : sameUnitReadable u (afterOp o s) (afterOp o t) := by
  rcases hv : o.unit with _ | v
  · obtain rfl := (Op.unit_eq_none_iff o).1 hv
    cases u <;> simp [sameUnitReadable, afterOp, doReset]
  · by_cases hvu : v = u
    · subst hvu
      cases v with
      | engine => exact sameUnitReadable_afterOp_engine o s t hv hc h
      | encoder => exact sameUnitReadable_afterOp_encoder o s t hv h
      | decoder => exact sameUnitReadable_afterOp_decoder o s t hv h
    · exact h.of_same_registers (afterOp_leaves_other_units o s v u hv hvu) (afterOp_leaves_other_units o t v u hv hvu)

/-- No unread bit reaches an answer. -/
theorem opAnswer_of_sameUnitReadable (o : Op) (s t : State) (hc : s.config = t.config) (hl : t.decCnt ≤ 4#3)
    (h : ∀ u, sameUnitReadable u s t) : opAnswer o s = opAnswer o t := by
  obtain ⟨hcrc, hcnt, -⟩ := h .engine
  obtain ⟨hn, -⟩ := h .encoder
  obtain ⟨hdn, -⟩ := h .decoder
  cases o with
  | reset => rfl
  | crcInit => rfl
  | crcByte b => rfl
  | decSync => rfl
  | crcWord w => simp only [opAnswer, hcnt]
  | crcFlush => simp only [opAnswer, hcnt, hc]
  | crcRead => exact congrArg OpResult.word hcrc
  | encLoad op arg => simp only [opAnswer, hn]
  | encPop =>
    by_cases hb : t.encCnt = 0#3
    · simp only [opAnswer, hn, hb, if_true]
    · simp only [opAnswer, hn, hb, if_false, ((h .encoder).encoder_pop hb).1]
  | decByte b =>
    by_cases hd : t.decCnt < 4#3
    · simp only [opAnswer, hdn, hd, if_true]
    · have hfull : t.decCnt = 4#3 := by bv_omega
      simp only [opAnswer, hdn, (h .decoder).decSr_eq hfull]

/-- An operation keeps two states alike and answers both the same. -/
theorem sameReadable_afterOp (o : Op) (s t : State) (hl : s.countsLegal) (h : sameReadable s t) :
    sameReadable (afterOp o s) (afterOp o t) := by
  rw [sameReadable_iff] at h ⊢
  obtain ⟨hunits, hc, hp, htr⟩ := h
  have hlt : t.decCnt ≤ 4#3 := (hunits .decoder).1 ▸ hl.2
  refine ⟨fun u => sameUnitReadable_afterOp o s t u hc (hunits u), ?_, ?_, ?_⟩
  · simpa using hc
  · simpa using hp
  · rw [afterOp_transcript_eq, afterOp_transcript_eq, htr, opAnswer_of_sameUnitReadable o s t hc hlt hunits]

/-- What is pending is readable as a whole: two states alike stay so with the same operations pending. -/
theorem sameReadable.with_pending {s t : State} (h : sameReadable s t) (ops : List Op) :
    sameReadable { s with pending := ops } { t with pending := ops } := by
  rw [sameReadable_iff] at h ⊢
  obtain ⟨hunits, hc, -, htr⟩ := h
  exact ⟨hunits, hc, rfl, htr⟩

/-- Settles O45: the operation performed is the same in both states, and no unit reads an unread bit. -/
theorem unreadBitsAreUnobservable : Obligations.UnreadBitsAreUnobservable := by
  intro s s' t h hl ht
  rw [step_eq] at ht
  injection ht with ht
  subst ht
  refine ⟨afterStep s', step_eq s', ?_⟩
  obtain ⟨-, -, hp, -⟩ := (sameReadable_iff s s').1 h
  cases hs : s.pending with
  | nil => simpa only [afterStep, ← hp, hs] using h
  | cons o rest =>
    simp only [afterStep, ← hp, hs]
    exact sameReadable_afterOp o _ _ hl (h.with_pending rest)

end Sys2Proof.Machine
end

section
/-! PROOFS on the memory side (20_memory.md): a step performs the next operation issued, and as many steps a whole
sequence (R60, R81); the image bytes that make a word (R53, R55). -/

namespace Sys2Proof.Machine

/-! ### The next operation issued -/

theorem afterStep_of_pending (s : State) (o : Op) (rest : List Op) (h : s.pending = o :: rest) :
    afterStep s = afterOp o { s with pending := rest } := by
  simp only [afterStep, h]

theorem afterStep_of_idle (s : State) (h : s.pending = []) : afterStep s = s := by
  simp only [afterStep, h]

@[simp] theorem afterStep_config (s : State) : (afterStep s).config = s.config := by
  cases hp : s.pending with
  | nil => rw [afterStep_of_idle s hp]
  | cons o rest => rw [afterStep_of_pending s o rest hp, afterOp_config]

/-- Settles O41: the state a step leaves is that of the operation issued next, or, with none issued, the same. -/
theorem stepPerformsOneOperation : Obligations.StepPerformsOneOperation := by
  constructor
  · intro s o rest hp
    exact ⟨afterOp o { s with pending := rest }, opAnswer o { s with pending := rest },
      by rw [step_eq, afterStep_of_pending s o rest hp], perform_eq _ _, afterOp_pending _ _, afterOp_config _ _,
      afterOp_transcript_eq _ _⟩
  · intro s hp
    rw [step_eq, afterStep_of_idle s hp]

/-- Settles O9: `assemble` is a concatenation of the four bytes, and a step keeps the whole configuration. -/
theorem wordOrderPlacesImageBytes : Obligations.WordOrderPlacesImageBytes := by
  refine ⟨fun b0 b1 b2 b3 => ⟨?_, ?_⟩, rfl, ?_⟩
  · simp [assemble]
  · simp [assemble]
  · intro s t ht
    rw [step_eq] at ht
    injection ht with ht
    rw [← ht, afterStep_config]

/-! ### Sequences of operations -/

/-- The state a sequence of operations leaves when every one of them is performed, refused or not. -/
def afterOps (ops : List Op) (s : State) : State := ops.foldl (fun t o => afterOp o t) s

@[simp] theorem afterOps_nil (s : State) : afterOps [] s = s := rfl

@[simp] theorem afterOps_cons (o : Op) (ops : List Op) (s : State) :
    afterOps (o :: ops) s = afterOps ops (afterOp o s) := rfl

@[simp] theorem afterOps_config (ops : List Op) (s : State) : (afterOps ops s).config = s.config := by
  induction ops generalizing s with
  | nil => rfl
  | cons o ops ih => rw [afterOps_cons, ih, afterOp_config]

/-- R37 for a sequence: operations of one unit leave the registers of every other as they were. -/
theorem afterOps_leaves_other_units (ops : List Op) (s : State) (u v : BlockUnit) (hu : ∀ o ∈ ops, o.unit = some u)
    (hv : u ≠ v) : sameUnitRegisters v (afterOps ops s) s := by
  induction ops generalizing s with
  | nil => cases v <;> simp [sameUnitRegisters]
  | cons o ops ih =>
    obtain ⟨ho, hops⟩ := List.forall_mem_cons.1 hu
    exact (ih (afterOp o s) hops).trans (afterOp_leaves_other_units o s u v ho hv)

/-- R60: as many steps as there are operations issued ahead of the pending ones perform them all, in order. -/
theorem core_run_pending (ops : List Op) (s : State) :
    core.run ops.length { s with pending := ops ++ s.pending } = .next (afterOps ops s) := by
  induction ops generalizing s with
  | nil => rfl
  | cons o ops ih =>
    have hfirst : afterStep { s with pending := o :: ops ++ s.pending } =
        { afterOp o s with pending := ops ++ (afterOp o s).pending } := by
      rw [afterOp_pending]
      exact afterOp_with_pending o s (ops ++ s.pending)
    rw [List.length_cons, core_run_succ, hfirst]
    exact ih (afterOp o s)

theorem noRefusal_cons (e : Op × OpResult) (tr : List (Op × OpResult)) :
    noRefusal (e :: tr) = (noRefusal [e] && noRefusal tr) := by
  simp [noRefusal]

theorem afterOp_lastRefused (o : Op) (s : State) :
    (afterOp o s).lastRefused = !noRefusal [(o, opAnswer o s)] := by
  have htr := afterOp_transcript_eq o s
  cases hr : opAnswer o s <;> simp [State.lastRefused, htr, hr, noRefusal]

/-- R81: a sequence that ends without a refusal has had every one of its operations performed. -/
theorem eq_afterOps_of_noRefusal (ops : List Op) (s t : State) (h : performAll ops s = .next t)
    (hn : noRefusal (t.transcript.drop s.transcript.length) = true) : t = afterOps ops s := by
  induction ops generalizing s with
  | nil =>
    injection h with h
    exact h.symm
  | cons o ops ih =>
    rw [performAll_cons] at h
    by_cases hr : (afterOp o s).lastRefused = true
    · rw [if_pos hr] at h
      injection h with h
      rw [← h, afterOp_transcript_eq, List.drop_left] at hn
      simp [afterOp_lastRefused, hn] at hr
    · rw [if_neg hr] at h
      obtain ⟨tr, htr⟩ := performAll_transcript ops _ _ h
      have hdrop : t.transcript.drop s.transcript.length = (o, opAnswer o s) :: tr := by
        simp [htr, afterOp_transcript_eq]
      rw [hdrop, noRefusal_cons, Bool.and_eq_true] at hn
      exact ih (afterOp o s) h (by rw [htr, List.drop_left]; exact hn.2)

/-- Settles O42: both the unrefused sequence and the steps perform every operation, in order. -/
theorem pendingOperationsRunInOrder : Obligations.PendingOperationsRunInOrder := by
  intro s t ops rest h hn
  rw [eq_afterOps_of_noRefusal ops { s with pending := rest } t h hn]
  exact core_run_pending ops { s with pending := rest }

/-! ### Four image bytes and one word -/

/-- R98: `CRC_BYTE` is never refused, so a sequence of them runs to its end. -/
theorem performAll_crcBytes (bs : List Byte) (s : State) :
    performAll (bs.map .crcByte) s = .next (afterOps (bs.map .crcByte) s) := by
  induction bs generalizing s with
  | nil => rfl
  | cons b bs ih =>
    rw [List.map_cons, performAll_cons_of_not_refused _ _ _ (afterOp_crcByte_lastRefused b s), ih]
    rfl

/-- R98: while they leave the packer short of a word, image bytes join the residue and `CRC` stays. -/
theorem afterOps_crcBytes_of_partial (bs : List Byte) (s : State) (h : s.pkCnt.toNat + bs.length ≤ 3) :
    (afterOps (bs.map .crcByte) s).crc = s.crc ∧
      bufBytes (afterOps (bs.map .crcByte) s).pkBuf (afterOps (bs.map .crcByte) s).pkCnt.toNat =
        bufBytes s.pkBuf s.pkCnt.toNat ++ bs := by
  induction bs generalizing s with
  | nil => simp
  | cons b bs ih =>
    rw [List.length_cons] at h
    have hlt : s.pkCnt < 3#2 := by bv_omega
    have hbuf := bufBytes_afterOp_crcByte_of_partial b s hlt
    have hcnt : (afterOp (.crcByte b) s).pkCnt.toNat = s.pkCnt.toNat + 1 := by
      simpa using congrArg List.length hbuf
    have hcrc : (afterOp (.crcByte b) s).crc = s.crc := by rw [afterOp_crcByte_of_partial b s hlt]; rfl
    obtain ⟨hcrc', hbuf'⟩ := ih (afterOp (.crcByte b) s) (by omega)
    rw [List.map_cons, afterOps_cons]
    exact ⟨hcrc'.trans hcrc, by rw [hbuf', hbuf, List.append_assoc, List.singleton_append]⟩

/-- R53, R98: the word completed is assembled from the three bytes held and the fourth. -/
theorem packedWord_of_bufBytes (s : State) (b0 b1 b2 b3 : Byte) (h : bufBytes s.pkBuf 3 = [b0, b1, b2]) :
    packedWord s b3 = assemble s.config.wordOrder b0 b1 b2 b3 := by
  simp only [bufBytes_three, List.cons.injEq, and_true] at h
  obtain ⟨h0, h1, h2⟩ := h
  rw [packedWord, h0, h1, h2]

/-- R55: from an empty packer, four image bytes absorb the word they assemble and leave no residue. -/
theorem afterOps_four_crcBytes (s : State) (b0 b1 b2 b3 : Byte) (h : s.pkCnt = 0#2) :
    (afterOps ([b0, b1, b2, b3].map .crcByte) s).crc =
        crcWord s.crc (assemble s.config.wordOrder b0 b1 b2 b3) POLY ∧
      (afterOps ([b0, b1, b2, b3].map .crcByte) s).pkCnt = 0#2 := by
  obtain ⟨hcrc, hbuf⟩ := afterOps_crcBytes_of_partial [b0, b1, b2] s (by simp [h])
  have hlast : afterOps ([b0, b1, b2, b3].map .crcByte) s =
      afterOp (.crcByte b3) (afterOps ([b0, b1, b2].map .crcByte) s) := rfl
  have hconfig := afterOps_config ([b0, b1, b2].map .crcByte) s
  rw [hlast]
  generalize afterOps ([b0, b1, b2].map .crcByte) s = full at *
  have hcnt : full.pkCnt.toNat = 3 := by simpa [h] using congrArg List.length hbuf
  have hword : packedWord full b3 = assemble s.config.wordOrder b0 b1 b2 b3 := by
    rw [← hconfig]
    exact packedWord_of_bufBytes full b0 b1 b2 b3 (by simpa [hcnt, h] using hbuf)
  rw [afterOp_crcByte_of_full b3 full (by bv_omega), hword, hcrc]
  exact ⟨rfl, rfl⟩

/-- Settles O15: both absorb the same word, and neither touches the Encoder or the Decoder. -/
theorem fourBytesActAsOneWord : Obligations.FourBytesActAsOneWord := by
  intro s b0 b1 b2 b3 h
  obtain ⟨hcrc, hcnt⟩ := afterOps_four_crcBytes s b0 b1 b2 b3 h
  obtain ⟨hsr, hn⟩ :=
    afterOps_leaves_other_units ([b0, b1, b2, b3].map .crcByte) s .engine .encoder (by simp [Op.unit]) (by decide)
  obtain ⟨hdsr, hdn⟩ :=
    afterOps_leaves_other_units ([b0, b1, b2, b3].map .crcByte) s .engine .decoder (by simp [Op.unit]) (by decide)
  refine ⟨_, _, performAll_crcBytes [b0, b1, b2, b3] s, perform_eq _ s, ?_⟩
  rw [afterOp_crcWord_of_aligned _ s h]
  exact ⟨hcrc, hcnt, h, hsr, hn, hdsr, hdn⟩

end Sys2Proof.Machine
end

section
/-! PROOFS on the encoding (30_encoding.md): the rows of the opcode table, the decoder against the encoder, and what the
step that completes a frame runs. -/

namespace Sys2Proof

/-! ### The rows of the opcode table -/

/-- R74: every row's mask is the opcode byte, and its match has no bit outside it. -/
theorem opcodeTable_rows_test_opcode :
    ∀ row ∈ opcodeTable,
      row.maskBits = 0xFF00000000#40 ∧ row.matchBits = frameValue (frameOpcode row.matchBits) 0#32 := by
  decide

/-- R74: a row selects the frame values with its opcode. -/
theorem selects_eq_opcode_beq (f : FrameValue) (row : OpcodeRow) (h : row ∈ opcodeTable) :
    row.selects f = (frameOpcode row.matchBits == frameOpcode f) := by
  obtain ⟨hmask, hmatch⟩ := opcodeTable_rows_test_opcode row h
  rw [Bool.eq_iff_iff, OpcodeRow.selects, beq_iff_eq, beq_iff_eq, hmask, eq_comm (a := frameOpcode row.matchBits)]
  conv_lhs => rw [hmatch]
  exact masked_eq_iff_opcode f _

/-- The opcodes of the table's rows (R74). -/
def tableOpcodes : List Byte := opcodeTable.map (frameOpcode ·.matchBits)

theorem tableOpcodes_eq : tableOpcodes = [0x00#8, 0x01#8, 0x02#8, 0x03#8, 0x04#8, 0x05#8] := by decide

theorem tableOpcodes_nodup : tableOpcodes.Nodup := by decide

theorem mem_tableOpcodes_iff (op : Byte) : op ∈ tableOpcodes ↔ op.toNat ≤ 5 := by
  simp only [tableOpcodes_eq, List.mem_cons, List.not_mem_nil, or_false, BitVec.toNat_eq, BitVec.toNat_ofNat]
  omega

/-- As many rows select a frame value as have its opcode. -/
theorem length_filter_selects (f : FrameValue) :
    (opcodeTable.filter (·.selects f)).length = tableOpcodes.count (frameOpcode f) := by
  rw [tableOpcodes, List.count, List.countP_map, List.countP_eq_length_filter]
  exact congrArg List.length (List.filter_congr (selects_eq_opcode_beq f))

/-- Settles O25: no two rows have the same opcode, and the rows' opcodes are those up to 5. -/
theorem opcodeRowsAreDisjointAndCoverTheNamed : Obligations.OpcodeRowsAreDisjointAndCoverTheNamed := by
  intro f
  rw [length_filter_selects, tableOpcodes_nodup.count]
  exact if_congr (mem_tableOpcodes_iff _) rfl rfl

/-! ### The decoder and the encoder -/

theorem decodeFrameValue_frameValue (i : Instr) : decodeFrameValue (frameValue i.opcode i.arg) = .ok i := by
  rw [decodeFrameValue_eq, frameOpcode_frameValue, frameArg_frameValue]
  cases i <;> rfl

/-- The instruction decoded has the opcode and the argument of the frame. -/
theorem fields_of_decodeFrameValue (f : FrameValue) (i : Instr) (h : decodeFrameValue f = .ok i) :
    i.opcode = frameOpcode f ∧ i.arg = frameArg f := by
  rw [decodeFrameValue_eq] at h
  split_ifs at h with h0 h1 h2 h3 h4 h5 <;> cases h
  · exact ⟨h0.symm, rfl⟩
  · exact ⟨h1.symm, rfl⟩
  · exact ⟨h2.symm, rfl⟩
  · exact ⟨h3.symm, rfl⟩
  · exact ⟨h4.symm, rfl⟩
  · exact ⟨h5.symm, rfl⟩

/-- R71, R82: the frame value of an instruction, and no other, decodes to it. -/
theorem decodeFrameValue_eq_ok_iff (op : Byte) (arg : Word) (i : Instr) :
    decodeFrameValue (frameValue op arg) = .ok i ↔ op = i.opcode ∧ arg = i.arg := by
  constructor
  · intro h
    obtain ⟨hop, harg⟩ := fields_of_decodeFrameValue _ i h
    exact ⟨by rw [hop, frameOpcode_frameValue], by rw [harg, frameArg_frameValue]⟩
  · rintro ⟨rfl, rfl⟩
    exact decodeFrameValue_frameValue i

/-- R70, R73: five bytes make a frame, whatever follows. -/
theorem decodeBytes_five (b0 b1 b2 b3 b4 : Byte) (rest : List Byte) :
    decodeBytes (b0 :: b1 :: b2 :: b3 :: b4 :: rest) =
      (decodeFrameValue (frameValue b0 (wordOfBytes b1 b2 b3 b4))).map (·, rest) := by
  cases h : decodeFrameValue (frameValue b0 (wordOfBytes b1 b2 b3 b4)) <;> simp [decodeBytes, h, Except.map]

/-- R70, R71: five bytes are the frame of their first and of the word the other four make. -/
theorem five_eq_frameBytes_append_iff (b0 b1 b2 b3 b4 : Byte) (rest rest' : List Byte) (op : Byte) (arg : Word) :
    b0 :: b1 :: b2 :: b3 :: b4 :: rest = frameBytes op arg ++ rest' ↔
      (b0 = op ∧ wordOfBytes b1 b2 b3 b4 = arg) ∧ rest = rest' := by
  constructor
  · intro h
    simp only [frameBytes, List.cons_append, List.nil_append, List.cons.injEq] at h
    obtain ⟨hop, h3, h2, h1, h0, hrest⟩ := h
    exact ⟨⟨hop, by rw [h3, h2, h1, h0, wordOfBytes_wordByte]⟩, hrest⟩
  · rintro ⟨⟨rfl, rfl⟩, rfl⟩
    simp [frameBytes]

theorem except_map_pair_eq_ok_iff {ε α β : Type} (x : Except ε α) (a : α) (b b' : β) :
    x.map (·, b) = .ok (a, b') ↔ x = .ok a ∧ b = b' := by
  cases x <;> simp [Except.map]

/-- Settles O27: five bytes decode by their frame value, which is the instruction's alone; fewer are no encoding. -/
theorem decodeAndEncodeInstructionsAgree : Obligations.DecodeAndEncodeInstructionsAgree := by
  intro bs rest i
  match bs with
  | [] | [_] | [_, _] | [_, _, _] | [_, _, _, _] => simp [decodeBytes, encode, frameBytes]
  | b0 :: b1 :: b2 :: b3 :: b4 :: rest' =>
    rw [decodeBytes_five, except_map_pair_eq_ok_iff, decodeFrameValue_eq_ok_iff, encode, five_eq_frameBytes_append_iff]

/-- R82: a table word decodes as the frame value it stands for. -/
theorem decodeTableWord_eq_some_iff (nbits w : Nat) (i : Instr) :
    decodeTableWord nbits w = some i ↔ decodeFrameValue (tableFrameValue nbits w) = .ok i := by
  have hbytes : decodeBytes (frameBytes (frameOpcode (tableFrameValue nbits w)) (frameArg (tableFrameValue nbits w))) =
      (decodeFrameValue (tableFrameValue nbits w)).map (·, []) := by
    rw [frameBytes, decodeBytes_five, wordOfBytes_wordByte, frameValue_fields]
  simp only [decodeTableWord, hbytes]
  cases decodeFrameValue (tableFrameValue nbits w) <;> simp [Except.map]

end Sys2Proof

namespace Sys2Proof.Machine

/-! ### The step that completes a frame -/

/-- R142: with four bytes held, the step that receives the fifth runs the frame they make. -/
theorem step_runs_completed_frame (s : State) (b : Byte) (rest : List Op) (hcnt : ¬ s.decCnt < 4#3)
    (hp : s.pending = .decByte b :: rest) :
    step s = runFrame (completedFrame s.decSr b) { s with pending := rest } := by
  rw [step_eq, afterStep_of_pending s _ rest hp, afterOp_decByte_of_full b { s with pending := rest } hcnt, runFrame_eq,
    frameOpcode_completedFrame, frameArg_completedFrame]

theorem runFrame_of_decodes (f : FrameValue) (i : Instr) (s : State) (h : decodeFrameValue f = .ok i) :
    runFrame f s = exec i s := by
  simp only [runFrame, h]

/-- R26: the first four bytes of a frame value and its fifth make it again. -/
theorem completedFrame_extract (f : FrameValue) :
    completedFrame (f.extractLsb' 8 32) (f.extractLsb' 0 8) = f := by
  apply BitVec.eq_of_getLsbD_eq
  intro j hj
  simp only [getLsbD_completedFrame, BitVec.getLsbD_extractLsb']
  by_cases h : j < 8
  · simp [h]
  · simp [h, show j - 8 < 32 by omega, show 8 + (j - 8) = j by omega]

/-- Settles O34: the fetch helper leaves the frame complete but for its pending byte. -/
theorem placedTableWordRunsNext : Obligations.PlacedTableWordRunsNext := by
  intro s nbits w i h
  rw [decodeTableWord_eq_some_iff] at h
  have hframe : completedFrame (s.withFetchWord nbits w).decSr ((tableFrameValue nbits w).extractLsb' 0 8) =
      tableFrameValue nbits w := completedFrame_extract _
  refine ⟨{ s.withFetchWord nbits w with pending := s.pending }, ?_, rfl, rfl, rfl, rfl, rfl, rfl, rfl, rfl⟩
  rw [step_runs_completed_frame (s.withFetchWord nbits w) _ s.pending (Nat.lt_irrefl 4) rfl, hframe]
  exact runFrame_of_decodes _ i _ h

/-! ### Reserved opcodes -/

/-- R127: opcodes above the named ones are none of them. -/
theorem ne_of_reserved (op k : Byte) (h : 6 ≤ op.toNat) (hk : k.toNat < 6) : op ≠ k := by
  rintro rfl
  omega

theorem isCommand_of_reserved (op : Byte) (h : 6 ≤ op.toNat) : isCommand op = false := by
  have hhigh : ¬ op ≤ 0x05#8 := by bv_omega
  simp [isCommand, hhigh]

theorem classOf_of_reserved (op : Byte) (h : 6 ≤ op.toNat) : classOf op = .reserved := by
  simp [classOf, ne_of_reserved op _ h]

theorem decodeFrameValue_of_reserved (op : Byte) (arg : Word) (h : 6 ≤ op.toNat) :
    decodeFrameValue (frameValue op arg) = .error (.reserved op arg) := by
  simp [decodeFrameValue_eq, ne_of_reserved op _ h]

/-- R26, R71: a frame's opcode and argument from its first four bytes and its fifth. -/
theorem completedFrame_fields (op : Byte) (arg : Word) :
    completedFrame (op ++ arg.extractLsb' 8 24) (arg.extractLsb' 0 8) = frameValue op arg := by
  have hhead (j : Nat) : (op ++ arg.extractLsb' 8 24 : Word).getLsbD j =
      if j < 24 then (arg.extractLsb' 8 24).getLsbD j else op.getLsbD (j - 24) := BitVec.getLsbD_append
  apply BitVec.eq_of_getLsbD_eq
  intro j hj
  rw [getLsbD_completedFrame, getLsbD_frameValue, hhead]
  by_cases h8 : j < 8
  · simp [h8, show j < 32 by omega]
  · by_cases h32 : j < 32
    · simp [h8, h32, show j - 8 < 24 by omega, show 8 + (j - 8) = j by omega]
    · simp [h8, h32, show ¬ j - 8 < 24 by omega, show j - 8 - 24 = j - 32 by omega]

/-- Settles O31: a reserved opcode is no command and no row's, and its frame is delivered as every frame is. -/
theorem reservedOpcodesAreDeliveredIntact : Obligations.ReservedOpcodesAreDeliveredIntact := by
  intro op arg s h
  refine ⟨?_, decodeFrameValue_of_reserved op arg h, ?_⟩
  · rw [perform_eq, afterOp_encLoad_of_bad op arg s (isCommand_of_reserved op h)]
    rfl
  · intro rest hcnt hsr hp
    have hfull : ¬ s.decCnt < 4#3 := by simp [hcnt]
    rw [step_runs_completed_frame s _ rest hfull hp, hsr, completedFrame_fields, runFrame_eq, frameOpcode_frameValue,
      frameArg_frameValue, classOf_of_reserved op h]
    rfl

end Sys2Proof.Machine
end

section
/-! PROOFS on the checksum engine (40_checksum_engine.md). The algorithm: `crc_shift1` bit by bit, its linearity over XOR and
what follows for `crc_word` and `compute_checksum` (R90 to R92, R105). -/

namespace Sys2Proof.Machine

/-! ### One shift -/

/-- Settles O3: the shift moves bit `j - 1` to `j`, and the XOR brings in bit `j` of the polynomial. -/
theorem crcShiftActsBitwise : Obligations.CrcShiftActsBitwise := by
  intro c P j hj
  rw [crcShift1_eq_xor, BitVec.getLsbD_xor, BitVec.getLsbD_shiftLeft]
  congr 1
  · cases j with
    | zero => simp
    | succ j => simp [hj]
  · cases c.getLsbD 31 <;> simp

/-- R105 (b): the bit tested and the bits shifted are those of the XOR. -/
theorem crcShift1_xor (a b P : Word) : crcShift1 (a ^^^ b) P = crcShift1 a P ^^^ crcShift1 b P := by
  apply BitVec.eq_of_getLsbD_eq
  intro j hj
  rw [BitVec.getLsbD_xor, crcShiftActsBitwise _ P j hj, crcShiftActsBitwise a P j hj, crcShiftActsBitwise b P j hj]
  simp only [BitVec.getLsbD_xor, Bool.and_xor_distrib_left, Bool.and_xor_distrib_right, Bool.xor_assoc,
    Bool.xor_left_comm]

/-! ### As many shifts as a word or a byte takes -/

theorem crcShifts_succ (P : Word) (n : Nat) (c : Word) : crcShifts P (n + 1) c = crcShifts P n (crcShift1 c P) := rfl

theorem crcShifts_eq_iterate (P : Word) (n : Nat) : crcShifts P n = (fun x => crcShift1 x P)^[n] := by
  induction n with
  | zero => rfl
  | succ n ih =>
    funext c
    rw [crcShifts_succ, ih, Function.iterate_succ_apply]

theorem crcShifts_xor (P : Word) (n : Nat) (a b : Word) :
    crcShifts P n (a ^^^ b) = crcShifts P n a ^^^ crcShifts P n b := by
  induction n generalizing a b with
  | zero => rfl
  | succ n ih => rw [crcShifts_succ, crcShift1_xor, ih, ← crcShifts_succ, ← crcShifts_succ]

/-- While the bits to be shifted out are 0, the polynomial does not come in. -/
theorem crcShifts_of_top_zero (P : Word) (n : Nat) (c : Word) (hn : n ≤ 32)
    (h : ∀ j, 32 - n ≤ j → c.getLsbD j = false) : crcShifts P n c = c <<< n := by
  induction n generalizing c with
  | zero => simp [crcShifts]
  | succ n ih =>
    have hshift : crcShift1 c P = c <<< 1 := by rw [crcShift1, h 31 (by omega)]; rfl
    have htop : ∀ j, 32 - n ≤ j → (c <<< 1).getLsbD j = false := by
      intro j hj
      rw [BitVec.getLsbD_shiftLeft, h (j - 1) (by omega), Bool.and_false]
    rw [crcShifts_succ, hshift, ih (c <<< 1) (by omega) htop, ← BitVec.shiftLeft_add, Nat.add_comm]

/-! ### A word -/

theorem crcWord_self (c P : Word) : crcWord c c P = 0#32 := by
  rw [crcWord, BitVec.xor_self, crcShifts_zero_word]

/-- R105 (a): `crc_word` depends on the XOR of the register and the word only. -/
theorem crcWord_eq_crcWord_xor (c w P : Word) : crcWord c w P = crcWord (c ^^^ w) 0#32 P := by
  simp only [crcWord, BitVec.xor_zero]

/-- R105 (c): the register and the word contribute apart. -/
theorem crcWord_eq_xor (c w P : Word) : crcWord c w P = crcWord c 0#32 P ^^^ crcWord w 0#32 P := by
  simp only [crcWord, BitVec.xor_zero, crcShifts_xor]

/-- R105 (b), (c): linearity in both operands. -/
theorem crcWord_xor_xor (c d w x P : Word) :
    crcWord (c ^^^ d) (w ^^^ x) P = crcWord c w P ^^^ crcWord d x P := by
  simp only [crcWord, crcShifts_xor]
  ac_rfl

/-- Settles O4: `crcShifts` is the iterate of `crcShift1`, and shifts of 0 give 0. -/
theorem crcWordIsThirtyTwoShifts : Obligations.CrcWordIsThirtyTwoShifts := by
  intro c w P
  exact ⟨by rw [crcWord, crcShifts_eq_iterate], crcWord_self c P⟩

/-! ### A sequence of words -/

@[simp] theorem computeChecksum_cons (w : Word) (ws : List Word) (I P : Word) :
    computeChecksum (w :: ws) I P = computeChecksum ws (crcWord I w P) P := rfl

/-- Settles O5: the fold of a list and of the list with one word more, and the source's four vectors evaluated. -/
theorem checksumCarriesAcrossWords : Obligations.ChecksumCarriesAcrossWords := by
  refine ⟨computeChecksum_nil, computeChecksum_snoc, ?_, ?_, ?_, ?_⟩ <;> decide +kernel

/-- R105 (c): checksums of equally long sequences XOR word by word, and so do the initial values. -/
theorem computeChecksum_xor (u v : List Word) (I J P : Word) (h : u.length = v.length) :
    computeChecksum u I P ^^^ computeChecksum v J P =
      computeChecksum (List.zipWith (· ^^^ ·) u v) (I ^^^ J) P := by
  induction u generalizing v I J with
  | nil =>
    obtain rfl := List.length_eq_zero_iff.1 h.symm
    rfl
  | cons w u ih =>
    cases v with
    | nil => cases h
    | cons x v =>
      rw [computeChecksum_cons, computeChecksum_cons, ih v _ _ (by simpa using h), ← crcWord_xor_xor]
      rfl

/-! ### A byte at a time -/

/-- A word without its top byte. -/
theorem getLsbD_topByte_xor (w : Word) (j : Nat) :
    ((wordByte w 3 ++ 0#24 : Word) ^^^ w).getLsbD j = (decide (j < 24) && w.getLsbD j) := by
  have htop : (wordByte w 3 ++ 0#24 : Word).getLsbD j =
      if j < 24 then (0#24).getLsbD j else (wordByte w 3).getLsbD (j - 24) := BitVec.getLsbD_append
  rw [BitVec.getLsbD_xor, htop]
  by_cases hj : j < 24
  · simp [hj]
  · by_cases h32 : j < 32
    · simp [hj, wordByte, show j - 24 < 8 by omega, show 24 + (j - 24) = j by omega]
    · simp [hj, wordByte, show ¬ j - 24 < 8 by omega, BitVec.getLsbD_of_ge w j (by omega)]

/-- Eight shifts absorb the top byte of a word and only move the other three. -/
theorem crcShifts_eight_xor (c w P : Word) :
    crcShifts P 8 (c ^^^ w) = crcByteSerial c (wordByte w 3) P ^^^ (w <<< 8) := by
  have hrest : crcShifts P 8 ((wordByte w 3 ++ 0#24 : Word) ^^^ w) = w <<< 8 := by
    have htop : ∀ j, 32 - 8 ≤ j → ((wordByte w 3 ++ 0#24 : Word) ^^^ w).getLsbD j = false := by
      intro j hj
      rw [getLsbD_topByte_xor, decide_eq_false (by omega), Bool.false_and]
    rw [crcShifts_of_top_zero P 8 _ (by decide) htop]
    apply BitVec.eq_of_getLsbD_eq
    intro j hj
    rw [BitVec.getLsbD_shiftLeft, BitVec.getLsbD_shiftLeft, getLsbD_topByte_xor]
    simp [show j - 8 < 24 by omega]
  have hsplit : c ^^^ w = (c ^^^ (wordByte w 3 ++ 0#24 : Word)) ^^^ ((wordByte w 3 ++ 0#24 : Word) ^^^ w) := by
    rw [BitVec.xor_assoc, ← BitVec.xor_assoc _ _ w, BitVec.xor_self, BitVec.zero_xor]
  rw [hsplit, crcShifts_xor, hrest, crcByteSerial]

theorem wordByte_shiftLeft_eight (w : Word) (k : Nat) (hk : k < 3) : wordByte (w <<< 8) (k + 1) = wordByte w k := by
  apply BitVec.eq_of_getLsbD_eq
  intro i hi
  simp only [wordByte, BitVec.getLsbD_extractLsb', BitVec.getLsbD_shiftLeft]
  simp [hi, show 8 * (k + 1) + i < 32 by omega, show ¬ 8 * (k + 1) + i < 8 by omega,
    show 8 * (k + 1) + i - 8 = 8 * k + i by omega]

/-- R105 (d): a word at a time is a byte at a time, the most significant first. -/
theorem crcWord_eq_byteSerial (c w P : Word) :
    crcWord c w P =
      crcByteSerial (crcByteSerial (crcByteSerial (crcByteSerial c (wordByte w 3) P) (wordByte w 2) P)
        (wordByte w 1) P) (wordByte w 0) P := by
  have hshifts : crcWord c w P = crcShifts P 8 (crcShifts P 8 (crcShifts P 8 (crcShifts P 8 (c ^^^ w)))) := by
    rw [crcWord, ← crcShifts_add, ← crcShifts_add, ← crcShifts_add]
  have hgone : w <<< 8 <<< 8 <<< 8 <<< 8 = 0#32 := by
    rw [← BitVec.shiftLeft_add, ← BitVec.shiftLeft_add, ← BitVec.shiftLeft_add]
    exact BitVec.shiftLeft_eq_zero (by decide)
  have hthird (x : Word) : wordByte (x <<< 8) 3 = wordByte x 2 := wordByte_shiftLeft_eight x 2 (by decide)
  have hsecond (x : Word) : wordByte (x <<< 8) 2 = wordByte x 1 := wordByte_shiftLeft_eight x 1 (by decide)
  have hfirst (x : Word) : wordByte (x <<< 8) 1 = wordByte x 0 := wordByte_shiftLeft_eight x 0 (by decide)
  simp only [hshifts, crcShifts_eight_xor, hgone, BitVec.xor_zero, hthird, hsecond, hfirst]

/-- Settles O6: each law from the linearity of one shift; the last from the eight shifts of each byte. -/
theorem engineObeysTheXorLaws : Obligations.EngineObeysTheXorLaws := by
  intro P
  refine ⟨fun c w => crcWord_eq_crcWord_xor c w P, fun a b => crcShift1_xor a b P,
    fun a b => crcWord_xor_xor a b 0#32 0#32 P, crcWord_self 0#32 P, fun c w => crcWord_eq_xor c w P, ?_,
    fun c w => crcWord_eq_byteSerial c w P⟩
  intro u v I h
  rw [computeChecksum_xor u v I I P h, BitVec.xor_self]

end Sys2Proof.Machine
end

section
/-! Words from image bytes (R94, R95) and the byte-serial CRC of an image (R105). -/

namespace Sys2Proof.Machine

/-! ### Groups of four bytes -/

theorem wordsOfBytes_four (order : WordOrder) (b0 b1 b2 b3 : Byte) (rest : List Byte) :
    wordsOfBytes order (b0 :: b1 :: b2 :: b3 :: rest) =
      (assemble order b0 b1 b2 b3 :: (wordsOfBytes order rest).1, (wordsOfBytes order rest).2) := rfl

/-- An image is four bytes and an image, or fewer than four bytes (R94): what is to be proved of every image. -/
theorem image_induction {motive : List Byte → Prop}
    (four : ∀ b0 b1 b2 b3 rest, motive rest → motive (b0 :: b1 :: b2 :: b3 :: rest))
    (short : ∀ tail, tail.length < 4 → motive tail) (bs : List Byte) : motive bs := by
  induction bs using wordsOfBytes.induct with
  | case1 b0 b1 b2 b3 rest ih => exact four b0 b1 b2 b3 rest ih
  | case2 tail hshort =>
    refine short tail (not_le.1 fun hlen => ?_)
    match tail, hlen with
    | b0 :: b1 :: b2 :: b3 :: rest, _ => exact hshort b0 b1 b2 b3 rest rfl

theorem length_words_wordsOfBytes (order : WordOrder) (bs : List Byte) :
    (wordsOfBytes order bs).1.length = bs.length / 4 := by
  induction bs using image_induction with
  | four b0 b1 b2 b3 rest ih =>
    rw [wordsOfBytes_four, List.length_cons, ih]
    simp only [List.length_cons]
    omega
  | short tail h => rw [wordsOfBytes_of_length_lt order tail h, Nat.div_eq_of_lt h, List.length_nil]

theorem tail_wordsOfBytes (order : WordOrder) (bs : List Byte) :
    (wordsOfBytes order bs).2 = bs.drop (4 * (bs.length / 4)) := by
  induction bs using image_induction with
  | four b0 b1 b2 b3 rest ih =>
    have hlen : 4 * ((b0 :: b1 :: b2 :: b3 :: rest).length / 4) = 4 * (rest.length / 4) + 4 := by
      simp only [List.length_cons]
      omega
    rw [wordsOfBytes_four, hlen, ih]
    rfl
  | short tail h => rw [wordsOfBytes_of_length_lt order tail h, Nat.div_eq_of_lt h, Nat.mul_zero, List.drop_zero]

theorem getElem?_words_wordsOfBytes (order : WordOrder) (bs : List Byte) (i : Nat) (hi : i < bs.length / 4) :
    (wordsOfBytes order bs).1[i]? =
      some (assemble order (bs.getD (4 * i) 0) (bs.getD (4 * i + 1) 0) (bs.getD (4 * i + 2) 0)
        (bs.getD (4 * i + 3) 0)) := by
  induction bs using image_induction generalizing i with
  | four b0 b1 b2 b3 rest ih =>
    rw [wordsOfBytes_four]
    cases i with
    | zero => rfl
    | succ i =>
      have hrest : i < rest.length / 4 := by
        simp only [List.length_cons] at hi
        omega
      exact ih i hrest
  | short tail h => omega

/-- Settles O10: by induction on the groups of four bytes. -/
theorem wordsOfBytesGroupsByFour : Obligations.WordsOfBytesGroupsByFour := fun o bs =>
  ⟨length_words_wordsOfBytes o bs, fun i hi => getElem?_words_wordsOfBytes o bs i hi, tail_wordsOfBytes o bs⟩

/-- Settles O11: a residue of each length and its zero bytes are one group of four. -/
theorem padTailAppendsZeroBytes : Obligations.PadTailAppendsZeroBytes := by
  intro o r h
  match r with
  | [_] => rfl
  | [_, _] => rfl
  | [_, _, _] => rfl
  | [] => cases h
  | _ :: _ :: _ :: _ :: _ =>
    simp only [isResidue, Bool.and_eq_true, decide_eq_true_eq, List.length_cons] at h
    omega

/-- R94: bytes that follow an image join its tail. -/
theorem wordsOfBytes_append (order : WordOrder) (as bs : List Byte) :
    wordsOfBytes order (as ++ bs) =
      ((wordsOfBytes order as).1 ++ (wordsOfBytes order ((wordsOfBytes order as).2 ++ bs)).1,
        (wordsOfBytes order ((wordsOfBytes order as).2 ++ bs)).2) := by
  induction as using image_induction with
  | four b0 b1 b2 b3 rest ih => simp only [List.cons_append, wordsOfBytes_four, ih]
  | short tail h => rw [wordsOfBytes_of_length_lt order tail h, List.nil_append]

/-! ### The byte-serial CRC -/

/-- The four bytes of a word, the most significant first: the order in which R105 (d) absorbs them. -/
def bytesOfWord (w : Word) : List Byte := [wordByte w 3, wordByte w 2, wordByte w 1, wordByte w 0]

/-- R105: the checksum of words is the byte-serial CRC of their bytes, each word's most significant first. -/
theorem computeChecksum_eq_byteSerial (ws : List Word) (I P : Word) :
    computeChecksum ws I P = (ws.flatMap bytesOfWord).foldl (fun c b => crcByteSerial c b P) I := by
  induction ws generalizing I with
  | nil => rfl
  | cons w ws ih => rw [computeChecksum_cons, ih, crcWord_eq_byteSerial]; rfl

@[simp] theorem bytesOfWord_assemble_big (b0 b1 b2 b3 : Byte) :
    bytesOfWord (assemble .big b0 b1 b2 b3) = [b0, b1, b2, b3] := by
  simp [bytesOfWord, assemble]

/-- Under `big` the bytes of the words of a whole-word image are the image. -/
theorem flatMap_bytesOfWord_big (bs : List Byte) (h : bs.length % 4 = 0) :
    (wordsOfBytes .big bs).1.flatMap bytesOfWord = bs := by
  induction bs using image_induction with
  | four b0 b1 b2 b3 rest ih =>
    have hrest : rest.length % 4 = 0 := by
      simp only [List.length_cons] at h
      omega
    simp [wordsOfBytes_four, ih hrest]
  | short tail hlt =>
    obtain rfl : tail = [] := List.length_eq_zero_iff.1 (by omega)
    rfl

/-- Under `little` a word has the bytes that it has under `big`, in the reverse order. -/
theorem flatMap_bytesOfWord_little (bs : List Byte) :
    (wordsOfBytes .little bs).1.flatMap bytesOfWord =
      (wordsOfBytes .big bs).1.flatMap (fun w => [wordByte w 0, wordByte w 1, wordByte w 2, wordByte w 3]) := by
  induction bs using image_induction with
  | four b0 b1 b2 b3 rest ih =>
    rw [wordsOfBytes_four, wordsOfBytes_four, List.flatMap_cons, List.flatMap_cons, ih]
    simp [bytesOfWord, assemble]
  | short tail h => rw [wordsOfBytes_of_length_lt _ tail h, wordsOfBytes_of_length_lt _ tail h]; rfl

/-- Settles O7: the bytes of the words are the image, or the image with each word's bytes reversed. -/
theorem wholeImageChecksumIsByteSerial : Obligations.WholeImageChecksumIsByteSerial := by
  intro I P bs h
  constructor
  · rw [computeChecksum_eq_byteSerial, flatMap_bytesOfWord_big bs h]
  · rw [computeChecksum_eq_byteSerial, flatMap_bytesOfWord_little]

end Sys2Proof.Machine
end

section
/-! Absorbing a word is a bijection (R102). -/

namespace Sys2Proof.Machine

/-- With an odd polynomial a shift leaves 0 for 0 only: bit 0 shows whether the polynomial came in. -/
theorem eq_zero_of_crcShift1_eq_zero (c P : Word) (hP : P.getLsbD 0 = true) (h : crcShift1 c P = 0#32) : c = 0#32 := by
  have hbit (j : Nat) (hj : j < 32) :
      ((decide (0 < j) && c.getLsbD (j - 1)) ^^ (c.getLsbD 31 && P.getLsbD j)) = false := by
    rw [← crcShiftActsBitwise c P j hj, h, BitVec.getLsbD_zero]
  have htop : c.getLsbD 31 = false := by
    simpa only [hP, lt_irrefl, decide_false, Bool.false_and, Bool.false_xor, Bool.and_true] using hbit 0 (by decide)
  apply BitVec.eq_of_getLsbD_eq
  intro j hj
  rw [BitVec.getLsbD_zero]
  by_cases h31 : j = 31
  · rw [h31, htop]
  · simpa only [htop, Nat.succ_pos, decide_true, Nat.add_sub_cancel, Bool.true_and, Bool.false_and, Bool.xor_false]
      using hbit (j + 1) (by omega)

theorem crcShift1_injective (P : Word) (hP : P.getLsbD 0 = true) : Function.Injective (fun c => crcShift1 c P) := by
  intro a b (h : crcShift1 a P = crcShift1 b P)
  have hxor : crcShift1 (a ^^^ b) P = 0#32 := by rw [crcShift1_xor, h, BitVec.xor_self]
  exact BitVec.xor_eq_zero_iff.1 (eq_zero_of_crcShift1_eq_zero _ P hP hxor)

theorem crcShifts_injective (P : Word) (hP : P.getLsbD 0 = true) (n : Nat) : Function.Injective (crcShifts P n) := by
  rw [crcShifts_eq_iterate]
  exact (crcShift1_injective P hP).iterate n

/-- There are finitely many words. -/
theorem bijective_of_injective_word (f : Word → Word) (h : Function.Injective f) : Function.Bijective f := by
  have hfinite : Finite Word := Finite.of_injective BitVec.toFin fun _ _ => BitVec.eq_of_toFin_eq
  exact Finite.injective_iff_bijective.1 h

theorem crcWord_bijective_word (c P : Word) (hP : P.getLsbD 0 = true) : Function.Bijective (fun w => crcWord c w P) :=
  bijective_of_injective_word _ fun _ _ h => (BitVec.xor_right_inj c).1 (crcShifts_injective P hP 32 h)

theorem crcWord_bijective_register (w P : Word) (hP : P.getLsbD 0 = true) :
    Function.Bijective (fun c => crcWord c w P) :=
  bijective_of_injective_word _ fun _ _ h => (BitVec.xor_left_inj w).1 (crcShifts_injective P hP 32 h)

/-- The words that follow keep two different registers apart. -/
theorem computeChecksum_injective (ws : List Word) (P : Word) (hP : P.getLsbD 0 = true) :
    Function.Injective (fun I => computeChecksum ws I P) := by
  induction ws with
  | nil => exact Function.injective_id
  | cons w ws ih => exact ih.comp (crcWord_bijective_register w P hP).injective

theorem computeChecksum_ne_of_one_word (us vs : List Word) (w₁ w₂ I P : Word) (hP : P.getLsbD 0 = true) (h : w₁ ≠ w₂) :
    computeChecksum (us ++ w₁ :: vs) I P ≠ computeChecksum (us ++ w₂ :: vs) I P := by
  rw [computeChecksum_append, computeChecksum_append]
  exact fun heq => h ((crcWord_bijective_word _ P hP).injective (computeChecksum_injective vs P hP heq))

/-- R102: with no residue held some `CRC_WORD` leaves any value wanted. -/
theorem exists_crcWord_reaching (s : State) (v : Word) (h : s.pkCnt = 0#2) :
    ∃ w, (afterOp (.crcWord w) s).crc = v := by
  obtain ⟨w, hw⟩ := (crcWord_bijective_word s.crc POLY (by decide)).surjective v
  exact ⟨w, by rw [afterOp_crcWord_of_aligned w s h]; exact hw⟩

theorem crcWord_INIT_zero : crcWord INIT 0#32 POLY = 0xC704DD7B#32 := by decide +kernel

/-- Settles O8: one shift by an odd polynomial loses nothing, so 32 do not; the collision is of two sequences whose
second word clears the register. -/
theorem absorbingAWordIsABijection : Obligations.AbsorbingAWordIsABijection := by
  refine ⟨fun P hP => ⟨fun c => crcWord_bijective_word c P hP, fun w => crcWord_bijective_register w P hP,
    fun us vs w₁ w₂ I h => computeChecksum_ne_of_one_word us vs w₁ w₂ I P hP h⟩, ?_, ?_⟩
  · intro s v h
    obtain ⟨w, hw⟩ := exists_crcWord_reaching s v h
    exact ⟨w, _, perform_eq _ s, hw⟩
  · have hleft : crcWord INIT 0xFFFFFFFF#32 POLY = 0#32 := crcWord_self INIT POLY
    simp only [computeChecksum_cons, computeChecksum_nil, hleft, crcWord_INIT_zero, crcWord_self]

end Sys2Proof.Machine
end

section
/-! The operations of the engine, each from every state (R96 to R101). -/

namespace Sys2Proof.Machine

/-- Settles O12: `CRC_INIT` writes the engine's three registers and its answer. -/
theorem crcInitStartsANewChecksum : Obligations.CrcInitStartsANewChecksum := fun s =>
  ⟨_, perform_eq .crcInit s, rfl, rfl, rfl, rfl, rfl, rfl, rfl, rfl, rfl, rfl⟩

/-- Settles O13: by whether a residue is held. -/
theorem crcWordAbsorbsOrRefuses : Obligations.CrcWordAbsorbsOrRefuses := by
  intro s w
  refine ⟨_, perform_eq _ s, ?_⟩
  by_cases h : s.pkCnt = 0#2
  · simp [afterOp_crcWord_of_aligned w s h, h]
  · simp [afterOp_crcWord_of_residue w s h, h]

/-- Settles O16: by whether a residue is held, then by the tail policy. -/
theorem crcFlushFollowsTailPolicy : Obligations.CrcFlushFollowsTailPolicy := by
  intro s
  refine ⟨_, perform_eq _ s, ?_⟩
  by_cases h : s.pkCnt = 0#2
  · simp [afterOp_crcFlush_of_aligned s h, h]
  · cases hp : s.config.tailPolicy <;> simp [afterOp_crcFlush_of_residue s h, h, hp]

theorem afterOp_crcRead (s : State) : afterOp .crcRead s = s.answer .crcRead (.word s.crc) := rfl

/-- Settles O17: a read only answers, so the next one finds the same register. -/
theorem crcReadReturnsTheRegister : Obligations.CrcReadReturnsTheRegister := by
  intro s
  refine ⟨_, _, perform_eq _ s, perform_eq _ _, ?_⟩
  simp [afterOp_crcRead, sameRegisters]

/-! ### The packer -/

/-- R22: the 24 bits of the packer are its three bytes. -/
theorem append_pkBuf_eq_wordOfBytes (b : Byte) (buf : BitVec 24) :
    (b ++ buf : Word) = wordOfBytes b (bufByte buf 2) (bufByte buf 1) (bufByte buf 0) := by
  have happend (i : Nat) : (b ++ buf : Word).getLsbD i = if i < 24 then buf.getLsbD i else b.getLsbD (i - 24) :=
    BitVec.getLsbD_append
  apply BitVec.eq_of_getLsbD_eq
  intro i hi
  rw [happend, getLsbD_wordOfBytes]
  simp only [bufByte, BitVec.getLsbD_extractLsb']
  by_cases h8 : i < 8
  · simp [h8, show i < 24 by omega]
  · by_cases h16 : i < 16
    · simp [h8, h16, show i < 24 by omega, show i - 8 < 8 by omega, show 8 + (i - 8) = i by omega]
    · by_cases h24 : i < 24
      · simp [h8, h16, h24, show i - 16 < 8 by omega, show 16 + (i - 16) = i by omega]
      · simp [h8, h16, h24]

theorem packedWord_of_little (s : State) (b : Byte) (h : s.config.wordOrder = .little) :
    packedWord s b = b ++ s.pkBuf := by
  rw [append_pkBuf_eq_wordOfBytes, packedWord, h]
  rfl

theorem packedWord_of_big (s : State) (b : Byte) (h : s.config.wordOrder = .big) :
    packedWord s b = s.pkBuf.extractLsb' 0 8 ++ s.pkBuf.extractLsb' 8 8 ++ s.pkBuf.extractLsb' 16 8 ++ b := by
  rw [packedWord, h]
  rfl

/-- Settles O14: by whether the byte is the fourth of its word. -/
theorem crcByteFillsThePacker : Obligations.CrcByteFillsThePacker := by
  intro s b
  obtain ⟨hencSr, hencCnt⟩ := afterOp_leaves_other_units (.crcByte b) s .engine .encoder rfl (by decide)
  obtain ⟨hdecSr, hdecCnt⟩ := afterOp_leaves_other_units (.crcByte b) s .engine .decoder rfl (by decide)
  refine ⟨_, perform_eq _ s, hencSr, hencCnt, hdecSr, hdecCnt, afterOp_config _ s, afterOp_pending _ s,
    afterOp_transcript_eq _ s, fun hne => ?_, fun heq => ?_⟩
  · have hpartial : s.pkCnt < 3#2 := by bv_omega
    have hbuf := bufBytes_afterOp_crcByte_of_partial b s hpartial
    have hcnt : (afterOp (.crcByte b) s).pkCnt.toNat = s.pkCnt.toNat + 1 := by simpa using congrArg List.length hbuf
    refine ⟨?_, hcnt, hbuf, fun j hj => ?_⟩
    · rw [afterOp_crcByte_of_partial b s hpartial]
      rfl
    · rw [afterOp_crcByte_of_partial b s hpartial]
      exact getLsbD_setBufByte s.pkBuf s.pkCnt.toNat b j hj
  · have hfull : ¬ s.pkCnt < 3#2 := by simp [heq]
    rw [afterOp_crcByte_of_full b s hfull]
    refine ⟨rfl, rfl, ?_⟩
    cases ho : s.config.wordOrder with
    | little => rw [packedWord_of_little s b ho]
    | big => rw [packedWord_of_big s b ho]

end Sys2Proof.Machine
end

section
/-! The pseudo-operations `checksum_words` and `checksum_bytes` (R81, R103, R104). -/

namespace Sys2Proof.Machine

/-- R81: operations that no state refuses are all performed, then what follows them. -/
theorem performAll_append_of_never_refused (ops os : List Op) (s : State)
    (h : ∀ o ∈ ops, ∀ t, (afterOp o t).lastRefused = false) :
    performAll (ops ++ os) s = performAll os (afterOps ops s) := by
  induction ops generalizing s with
  | nil => rfl
  | cons o ops ih =>
    obtain ⟨ho, hops⟩ := List.forall_mem_cons.1 h
    rw [List.cons_append, performAll_cons_of_not_refused _ _ s (ho s), ih _ hops, afterOps_cons]

theorem performAll_crcRead (s : State) : performAll [.crcRead] s = .next (s.answer .crcRead (.word s.crc)) :=
  performAll_cons_of_not_refused _ _ s (afterOp_crcRead_lastRefused s)

/-- R92, R97: from an empty packer a sequence of `CRC_WORD` absorbs its words, none refused. -/
theorem performAll_crcWords_append (ws : List Word) (os : List Op) (s : State) (h : s.pkCnt = 0#2) :
    performAll (ws.map .crcWord ++ os) s =
      performAll os
        { s with
          crc := computeChecksum ws s.crc POLY
          transcript := s.transcript ++ ws.map fun w => (.crcWord w, .done) } := by
  induction ws generalizing s with
  | nil => simp
  | cons w ws ih =>
    have hstate := afterOp_crcWord_of_aligned w s h
    have hcnt : (afterOp (.crcWord w) s).pkCnt = 0#2 := by rw [hstate]; exact h
    have hdone : (afterOp (.crcWord w) s).lastRefused = false := by
      rw [afterOp_lastRefused, opAnswer, if_pos h]
      rfl
    rw [List.map_cons, List.cons_append, performAll_cons_of_not_refused _ _ s hdone, ih _ hcnt, hstate]
    simp

/-- R103: the state that `checksum_words` leaves. -/
theorem performAll_checksumWords (ws : List Word) (s : State) :
    performAll (checksumWords ws) s =
      .next { s with
        crc := computeChecksum ws INIT POLY
        pkBuf := 0#24
        pkCnt := 0#2
        transcript := s.transcript ++ (.crcInit, .done) :: ws.map (fun w => (.crcWord w, .done)) ++
          [(.crcRead, .word (computeChecksum ws INIT POLY))] } := by
  have hinit : (afterOp .crcInit s).pkCnt = 0#2 := rfl
  rw [checksumWords, List.cons_append, performAll_cons_of_not_refused _ _ s (afterOp_crcInit_lastRefused s),
    performAll_crcWords_append ws _ _ hinit, performAll_crcRead]
  simp [afterOp, doCrcInit, State.answer]

/-- Settles O18: `CRC_INIT` empties the packer and sets `CRC` to `INIT`, the words are absorbed, the read answers. -/
theorem checksumWordsReturnsTheChecksum : Obligations.ChecksumWordsReturnsTheChecksum := by
  intro s ws
  refine ⟨_, performAll_checksumWords ws s, rfl, rfl, ?_, ?_, ?_⟩
  · simp [noRefusal]
  · simp only [List.length_append, List.length_cons, List.length_map, List.length_nil]
    omega
  · exact List.getLast?_concat

@[simp] theorem afterOps_append (os ps : List Op) (s : State) : afterOps (os ++ ps) s = afterOps ps (afterOps os s) :=
  List.foldl_append

/-- R98: image bytes given to an engine that has been given nothing make the words and the tail of `words_of_bytes`. -/
theorem engineHolds_afterOps_crcBytes (bs : List Byte) (s : State) (hs : s.engineHolds ⟨[], []⟩) :
    (afterOps (bs.map .crcByte) s).engineHolds
      ⟨(wordsOfBytes s.config.wordOrder bs).1, (wordsOfBytes s.config.wordOrder bs).2⟩ := by
  induction bs using List.reverseRecOn with
  | nil => exact hs
  | append_singleton bs b ih =>
    have hnext := engineHolds_afterOp_crcByte b _ _ ih
    rw [afterOps_config] at hnext
    rw [List.map_append, afterOps_append, wordsOfBytes_append]
    exact hnext

/-- A packer that holds what `h` leaves over is empty exactly when nothing is left over. -/
theorem State.engineHolds.pkCnt_eq_zero_iff {s : State} {h : EngineHistory} (hs : s.engineHolds h) :
    s.pkCnt = 0#2 ↔ h.residue = [] := by
  obtain ⟨-, hbuf⟩ := hs
  rw [← hbuf, ← List.length_eq_zero_iff, length_bufBytes]
  constructor
  · intro hcnt
    rw [hcnt]
    rfl
  · intro hcnt
    bv_omega

/-- R100: a flush that is refused ends a sequence. -/
theorem performAll_crcFlush_of_refused (os : List Op) (s : State) (h : s.pkCnt ≠ 0#2)
    (hp : s.config.tailPolicy = .refuse) : performAll (.crcFlush :: os) s = .next (s.refuse .crcFlush .tailResidue) := by
  have hrefused : opAnswer .crcFlush s = .refused .tailResidue := by simp [opAnswer, h, hp]
  have hlast : (afterOp .crcFlush s).lastRefused = true := by rw [afterOp_lastRefused, hrefused]; rfl
  rw [performAll_cons, if_pos hlast, afterOp_of_refused _ s _ hrefused]

/-- R100, R101: a read after a flush that is done answers the checksum of the image, the flush included. -/
theorem performAll_crcFlush_crcRead_of_done (s : State) (h : EngineHistory) (hs : s.engineHolds h)
    (hd : opAnswer .crcFlush s = .done) :
    ∃ t, performAll [.crcFlush, .crcRead] s = .next t ∧
      t.transcript.getLast? =
        some (.crcRead, .word (computeChecksum (engineEvent s.config h (.crcFlush, .done)).words INIT POLY)) := by
  have hlast : (afterOp .crcFlush s).lastRefused = false := by rw [afterOp_lastRefused, hd]; rfl
  obtain ⟨hcrc, -⟩ := engineHolds_afterOp_crcFlush s h hs
  rw [hd] at hcrc
  refine ⟨_, by rw [performAll_cons_of_not_refused _ _ s hlast, performAll_crcRead], ?_⟩
  rw [State.answer_transcript, List.getLast?_concat, hcrc]

/-- R104: before its flush, `checksum_bytes` has given the engine the words and the tail of the image, from every state. -/
theorem performAll_checksumBytes (bs : List Byte) (s : State) :
    ∃ full : State, performAll (checksumBytes bs) s = performAll [.crcFlush, .crcRead] full ∧
      full.config = s.config ∧
      full.engineHolds ⟨(wordsOfBytes s.config.wordOrder bs).1, (wordsOfBytes s.config.wordOrder bs).2⟩ := by
  refine ⟨afterOps (.crcInit :: bs.map .crcByte) s, ?_, afterOps_config _ s, ?_⟩
  · exact performAll_append_of_never_refused _ _ s (by simp)
  · rw [afterOps_cons, ← afterOp_config .crcInit s]
    exact engineHolds_afterOps_crcBytes bs (afterOp .crcInit s) ⟨rfl, rfl⟩

/-- Settles O19: the bytes make the words and the tail of the image; by whether the flush refuses the tail, and where it
does not, by whether there is one and what `TAIL_POLICY` does with it. -/
theorem checksumBytesFollowsTailPolicy : Obligations.ChecksumBytesFollowsTailPolicy := by
  intro s bs
  obtain ⟨full, hrun, hconfig, hholds⟩ := performAll_checksumBytes bs s
  have hempty := hholds.pkCnt_eq_zero_iff
  rw [hrun, ← hconfig]
  rw [← hconfig] at hholds hempty
  by_cases hrefused : full.pkCnt ≠ 0#2 ∧ full.config.tailPolicy = .refuse
  · obtain ⟨hcnt, hp⟩ := hrefused
    refine ⟨_, performAll_crcFlush_of_refused _ full hcnt hp, fun htail => absurd (hempty.2 htail) hcnt, fun _ => ?_⟩
    rw [State.refuse_transcript, List.getLast?_concat, hp]
  · obtain ⟨t, ht, hlast⟩ := performAll_crcFlush_crcRead_of_done full _ hholds (by simp [opAnswer, hrefused])
    refine ⟨t, ht, fun htail => ?_, fun htail => ?_⟩
    · rw [hlast]
      simp [engineEvent, htail]
    · have hcnt : full.pkCnt ≠ 0#2 := fun h0 => htail (hempty.1 h0)
      rw [hlast]
      cases hp : full.config.tailPolicy with
      | refuse => exact absurd ⟨hcnt, hp⟩ hrefused
      | drop => simp [engineEvent, hp]
      | zeroPad => simp [engineEvent, hp, htail]

end Sys2Proof.Machine
end

section
/-! PROOFS on the frame commands (41_frame_commands.md): the classes of opcodes, what every wire instruction does when
received, and `send` of a command from an idle Encoder. -/

namespace Sys2Proof.Machine

/-! ### Classes of opcodes -/

theorem isCommand_iff (op : Byte) : isCommand op = true ↔ 1 ≤ op.toNat ∧ op.toNat ≤ 5 := by
  simp [isCommand, BitVec.le_def]

/-- R127: the five commands. -/
theorem eq_of_isCommand (op : Byte) (h : isCommand op = true) :
    op = 0x01#8 ∨ op = 0x02#8 ∨ op = 0x03#8 ∨ op = 0x04#8 ∨ op = 0x05#8 := by
  obtain ⟨hlow, hhigh⟩ := (isCommand_iff op).1 h
  bv_omega

theorem opcodeOf_classOf (op : Byte) (h : isCommand op = true) : opcodeOf (classOf op) = some op := by
  obtain rfl | rfl | rfl | rfl | rfl := eq_of_isCommand op h <;> rfl

/-- Settles O24: the named opcodes one by one, the reserved ones and the commands by their ranges. -/
theorem classOfPartitionsTheOpcodes : Obligations.ClassOfPartitionsTheOpcodes :=
  ⟨rfl, rfl, rfl, rfl, rfl, rfl, classOf_of_reserved, isCommand_iff, opcodeOf_classOf⟩

/-! ### A wire instruction received -/

theorem decodeBytes_encode (i : Instr) : decodeBytes (encode i) = .ok (i, []) :=
  (decodeAndEncodeInstructionsAgree _ [] i).2 (List.append_nil _).symm

/-- Settles O28: each written-out frame is the encoding of its instruction. -/
theorem writtenOutFramesDecode : Obligations.WrittenOutFramesDecode :=
  ⟨decodeBytes_encode (.invalid 0x00000100#32), decodeBytes_encode (.echo 0#32),
    decodeBytes_encode (.setsize 0x00000100#32), decodeBytes_encode (.update 0#32),
    decodeBytes_encode (.check 0x04F1F147#32), decodeBytes_encode (.jump 0x08004000#32)⟩

theorem encode_eq_bytes (i : Instr) :
    encode i = [i.opcode, i.arg.extractLsb' 24 8, i.arg.extractLsb' 16 8, i.arg.extractLsb' 8 8,
      i.arg.extractLsb' 0 8] := rfl

/-- R142: the state that the delivery of a wire instruction leaves, written out. -/
theorem exec_eq_next (i : Instr) (s : State) :
    exec i s = .next { s with
      decCnt := 0#3
      transcript := s.transcript ++
        [(.decByte (i.arg.extractLsb' 0 8), .frame { op := i.opcode, arg := i.arg, cls := classOf i.opcode })] } :=
  exec_eq_deliver i s

/-- Settles O30: `0x00` is no command, so it is refused; received, it is delivered as every wire instruction is. -/
theorem invalidIsRefusedToSendButDelivered : Obligations.InvalidIsRefusedToSendButDelivered := by
  intro arg s
  have hrefused : perform (.encLoad 0x00#8 arg) s = .next (s.refuse (.encLoad 0x00#8 arg) .badOpcode) := by
    rw [perform_eq, afterOp_encLoad_of_bad _ arg s rfl]
  exact ⟨hrefused, encode_eq_bytes (.invalid arg), decodeFrameValue_frameValue (.invalid arg),
    exec_eq_next (.invalid arg) s⟩

/-! ### A command sent -/

/-- R71, R133: behind the opcode of a frame value stands its argument, the most significant byte first. -/
theorem encShift_frameValue (op : Byte) (arg : Word) :
    encShift (frameValue op arg) = frameValue (wordByte arg 3) (arg <<< 8) := by
  apply BitVec.eq_of_getLsbD_eq
  intro j hj
  rw [encShift_eq_shiftLeft, BitVec.getLsbD_shiftLeft, getLsbD_frameValue, getLsbD_frameValue, BitVec.getLsbD_shiftLeft,
    wordByte, BitVec.getLsbD_extractLsb']
  by_cases h8 : j < 8
  · simp [h8, show j < 32 by omega]
  · by_cases h32 : j < 32
    · simp [h8, hj, h32, show j - 8 < 32 by omega]
    · simp [h8, hj, h32, show j - 8 < 32 by omega, show j - 32 < 8 by omega, show 24 + (j - 32) = j - 8 by omega]

/-- R130, R134: a frame value loaded into the Encoder is emitted as the five bytes of its frame. -/
theorem encRemaining_frameValue (op : Byte) (arg : Word) : encRemaining 5 (frameValue op arg) = frameBytes op arg := by
  have htop (b : Byte) (w : Word) : encTopByte (frameValue b w) = b := frameOpcode_frameValue b w
  have hthird (x : Word) : wordByte (x <<< 8) 3 = wordByte x 2 := wordByte_shiftLeft_eight x 2 (by decide)
  have hsecond (x : Word) : wordByte (x <<< 8) 2 = wordByte x 1 := wordByte_shiftLeft_eight x 1 (by decide)
  have hfirst (x : Word) : wordByte (x <<< 8) 1 = wordByte x 0 := wordByte_shiftLeft_eight x 0 (by decide)
  simp only [encRemaining, encShift_frameValue, htop, hthird, hsecond, hfirst, frameBytes]

/-- R133: as many `ENC_POP` as there are bytes to emit emit them all, none refused, and leave the Encoder idle. -/
theorem performAll_encPops (n : Nat) (s : State) (h : s.encCnt.toNat = n) :
    performAll (List.replicate n .encPop) s =
      .next { s with
        encSr := s.encSr <<< (8 * n)
        encCnt := 0#3
        transcript := s.transcript ++ (encRemaining n s.encSr).map fun b => (.encPop, .byte b) } := by
  induction n generalizing s with
  | zero =>
    have hidle : s.encCnt = 0#3 := by bv_omega
    simp [encRemaining, ← hidle]
  | succ n ih =>
    have hbusy : s.encCnt ≠ 0#3 := by bv_omega
    have hstate := afterOp_encPop_of_busy s hbusy
    have hcnt : (afterOp .encPop s).encCnt.toNat = n := by
      rw [hstate]
      bv_omega
    have hdone : (afterOp .encPop s).lastRefused = false := by
      rw [afterOp_lastRefused, opAnswer, if_neg hbusy]
      rfl
    rw [List.replicate_succ, performAll_cons_of_not_refused _ _ s hdone, ih _ hcnt, hstate]
    simp [encRemaining, encShift_eq_shiftLeft, ← BitVec.shiftLeft_add, Nat.mul_add, Nat.add_comm]

/-- R135: the state that `send` of a command leaves from an idle Encoder. -/
theorem performAll_send_of_idle (op : Byte) (arg : Word) (s : State) (hc : isCommand op = true) (h : s.encCnt = 0#3) :
    performAll (send op arg) s =
      .next { s with
        encSr := 0#40
        encCnt := 0#3
        transcript := s.transcript ++
          (.encLoad op arg, .done) :: (frameBytes op arg).map fun b => (.encPop, .byte b) } := by
  have hstate := afterOp_encLoad_of_idle op arg s hc h
  have hcnt : (afterOp (.encLoad op arg) s).encCnt.toNat = 5 := by
    rw [hstate]
    rfl
  have hdone : (afterOp (.encLoad op arg) s).lastRefused = false := by
    simp [afterOp_lastRefused, opAnswer, hc, h, noRefusal]
  have hempty : frameValue op arg <<< (8 * 5) = 0#40 := BitVec.shiftLeft_eq_zero (by decide)
  have hpops := performAll_encPops 5 _ hcnt
  rw [hstate] at hpops
  simp only [hempty, encRemaining_frameValue] at hpops
  rw [send, performAll_cons_of_not_refused _ _ s hdone, hstate]
  simpa using hpops

/-- R51: the bytes that `ENC_POP` operations answered are the frame-byte-out stream. -/
theorem emittedBytes_encPops (bs : List Byte) : emittedBytes (bs.map fun b => (.encPop, .byte b)) = bs := by
  simp [emittedBytes, List.filterMap_map]

theorem noRefusal_encPops (bs : List Byte) : noRefusal (bs.map fun b => (.encPop, .byte b)) = true := by
  simp [noRefusal]

/-- R121 to R125: the line "encode", a command sent from an idle Encoder. -/
theorem send_emits_encoding (i : Instr) (hc : isCommand i.opcode = true) (s : State) (h : s.encCnt = 0#3) :
    ∃ t : State, performAll (send i.opcode i.arg) s = .next t ∧
      noRefusal (t.transcript.drop s.transcript.length) = true ∧
      emittedBytes (t.transcript.drop s.transcript.length) = encode i := by
  refine ⟨_, performAll_send_of_idle i.opcode i.arg s hc h, ?_, ?_⟩
  · rw [List.drop_left, noRefusal_cons, noRefusal_encPops]
    rfl
  · rw [List.drop_left]
    exact emittedBytes_encPops (encode i)

/-- Settles O29: the five rows are the instructions whose opcode is a command; each is encoded, decoded and delivered as
every wire instruction is, and sent as every command is. -/
theorem everyCommandIsSentAndDelivered : Obligations.EveryCommandIsSentAndDelivered := by
  intro row hrow arg s
  have complete (i : Instr) (hc : isCommand i.opcode = true) : _ ∧ _ ∧ _ ∧ (s.encCnt = 0#3 → _) :=
    ⟨encode_eq_bytes i, decodeFrameValue_frameValue i, exec_eq_next i s, send_emits_encoding i hc s⟩
  simp only [List.mem_cons, List.not_mem_nil, or_false] at hrow
  obtain rfl | rfl | rfl | rfl | rfl := hrow
  · exact complete (.echo arg) rfl
  · exact complete (.setsize arg) rfl
  · exact complete (.update arg) rfl
  · exact complete (.check arg) rfl
  · exact complete (.jump arg) rfl

end Sys2Proof.Machine
end

section
/-! PROOFS on the frame encoder (42_frame_encoder.md): the encoding of the commands, `ENC_LOAD`, `ENC_POP`, `send`, and
the frame-byte-out stream. -/

namespace Sys2Proof.Machine

/-! ### The encoding of a command -/

theorem encodeCommand_of_command (op : Byte) (arg : Word) (h : isCommand op = true) :
    encodeCommand op arg = some (frameBytes op arg) := if_pos h

theorem encodeCommand_of_not_command (op : Byte) (arg : Word) (h : isCommand op = false) :
    encodeCommand op arg = none := if_neg (by simp [h])

/-- R131: the five bytes of a frame determine its opcode and its argument. -/
theorem frameBytes_inj (op op' : Byte) (arg arg' : Word) :
    frameBytes op arg = frameBytes op' arg' ↔ op = op' ∧ arg = arg' := by
  have h := five_eq_frameBytes_append_iff op (wordByte arg 3) (wordByte arg 2) (wordByte arg 1) (wordByte arg 0) [] []
    op' arg'
  rw [wordOfBytes_wordByte, List.append_nil] at h
  exact h.trans (and_iff_left rfl)

/-- R130: bytes that encode a command are those of its frame. -/
theorem eq_frameBytes_of_encodeCommand (op : Byte) (arg : Word) (bs : List Byte) (h : encodeCommand op arg = some bs) :
    bs = frameBytes op arg := by
  by_cases hc : isCommand op = true
  · rw [encodeCommand_of_command op arg hc] at h
    exact (Option.some.inj h).symm
  · rw [encodeCommand_of_not_command op arg (by simpa using hc)] at h
    cases h

/-- Settles O20: `encode` of a command is its frame, and a frame's bytes are those of one opcode and argument. -/
theorem encodeIsFiveBytesAndInjective : Obligations.EncodeIsFiveBytesAndInjective := by
  refine ⟨encodeCommand_of_command, encodeCommand_of_not_command, ?_⟩
  intro op op' arg arg' bs h h'
  rw [← frameBytes_inj, ← eq_frameBytes_of_encodeCommand _ _ bs h, ← eq_frameBytes_of_encodeCommand _ _ bs h']

/-! ### `ENC_LOAD`, `ENC_POP` and `send` -/

/-- Settles O21: a bad opcode, a busy Encoder and an accepted command, in the order they are checked. -/
theorem encLoadAcceptsCommandsWhenIdle : Obligations.EncLoadAcceptsCommandsWhenIdle := by
  intro s op arg
  refine ⟨_, perform_eq _ s, ?_⟩
  rw [← isCommand_iff]
  by_cases hc : isCommand op = true
  · by_cases hidle : s.encCnt = 0#3
    · rw [afterOp_encLoad_of_idle op arg s hc hidle]
      simp [hc, hidle]
    · rw [afterOp_encLoad_of_busy op arg s hc hidle]
      simp [hc, hidle]
  · rw [afterOp_encLoad_of_bad op arg s (by simpa using hc)]
    simp [hc]

/-- Settles O22: at count 0 the operation is refused; else the byte shift is a left shift and one comes off the count. -/
theorem encPopEmitsTheTopByte : Obligations.EncPopEmitsTheTopByte := by
  intro s
  refine ⟨_, perform_eq _ s, ?_⟩
  by_cases hidle : s.encCnt = 0#3
  · rw [afterOp_encPop_of_idle s hidle]
    simp [hidle]
  · have hcnt : (s.encCnt - 1#3).toNat + 1 = s.encCnt.toNat := by bv_omega
    rw [afterOp_encPop_of_busy s hidle, encShift_eq_shiftLeft]
    simp [hidle, hcnt, encTopByte, -BitVec.toNat_sub]

/-- R132: what is no command, or comes to a busy Encoder, is refused. -/
theorem opAnswer_encLoad_refused (op : Byte) (arg : Word) (s : State) (h : isCommand op = false ∨ s.encCnt ≠ 0#3) :
    ∃ reason, opAnswer (.encLoad op arg) s = .refused reason := by
  by_cases hc : isCommand op = false
  · exact ⟨.badOpcode, if_pos hc⟩
  · exact ⟨.encoderBusy, by rw [opAnswer, if_neg hc, if_neg (h.resolve_left hc)]⟩

/-- R81: a sequence whose first operation is refused ends there. -/
theorem performAll_cons_of_refused (o : Op) (os : List Op) (s : State) (reason : RefusalReason)
    (h : opAnswer o s = .refused reason) : performAll (o :: os) s = .next (s.refuse o reason) := by
  have hlast : (afterOp o s).lastRefused = true := by simp [afterOp_lastRefused, h, noRefusal]
  rw [performAll_cons, if_pos hlast, afterOp_of_refused o s reason h]

/-- Settles O23: the state that an accepted `send` leaves, or the refusal of its `ENC_LOAD`. -/
theorem sendEmitsTheFiveBytes : Obligations.SendEmitsTheFiveBytes := by
  intro s op arg
  by_cases hacc : isCommand op = false ∨ s.encCnt ≠ 0#3
  · obtain ⟨reason, hr⟩ := opAnswer_encLoad_refused op arg s hacc
    refine ⟨_, performAll_cons_of_refused _ _ s reason hr, ?_, fun _ => ?_⟩
    · intro hc hidle
      exact absurd hacc (by simp [hc, hidle])
    · exact ⟨by simp [sameRegisters], by simp [emittedBytes], reason, rfl⟩
  · obtain ⟨hc, hidle⟩ : isCommand op = true ∧ s.encCnt = 0#3 := by simpa using hacc
    refine ⟨_, performAll_send_of_idle op arg s hc hidle, fun _ _ => ?_, fun h => absurd h hacc⟩
    rw [encodeCommand_of_command op arg hc, resultsAfter, List.drop_left]
    exact ⟨rfl, congrArg some (emittedBytes_encPops (frameBytes op arg)), rfl, rfl⟩

/-! ### The frame-byte-out stream -/

/-- What has been emitted and what the shift register still holds are the frames of the commands accepted:
`State.encoderAgrees` for a given history, without the range of the counter. -/
def State.encoderHolds (s : State) (h : EncoderHistory) : Prop :=
  h.emitted ++ encRemaining s.encCnt.toNat s.encSr = h.loaded.flatMap (fun c => frameBytes c.1 c.2) ∧
    ∀ c ∈ h.loaded, isCommand c.1 = true

theorem encoderAgrees_iff_encoderHolds (s : State) :
    s.encoderAgrees ↔ s.encoderHolds (encoderHistory s.transcript) ∧ s.encCnt ≤ 5#3 :=
  and_assoc.symm

theorem encoderHistory_append (tr : List (Op × OpResult)) (e : Op × OpResult) :
    encoderHistory (tr ++ [e]) = encoderEvent (encoderHistory tr) e := by
  simp [encoderHistory]

/-- A refused operation adds nothing to the stream; `RESET` is never refused. -/
theorem encoderEvent_refused (h : EncoderHistory) (o : Op) (reason : RefusalReason) (ho : o ≠ .reset) :
    encoderEvent h (o, .refused reason) = h := by
  cases o with
  | reset => exact absurd rfl ho
  | crcInit | crcWord | crcByte | crcFlush | crcRead | encLoad | encPop | decByte | decSync => rfl

/-- An operation of the engine or the Decoder adds nothing to the stream, whatever its answer. -/
theorem encoderEvent_of_other_unit (h : EncoderHistory) (o : Op) (r : OpResult) (u : BlockUnit) (hu : o.unit = some u)
    (hne : u ≠ .encoder) : encoderEvent h (o, r) = h := by
  cases o with
  | reset => cases hu
  | encLoad | encPop => exact absurd (Option.some.inj hu).symm hne
  | crcInit | crcWord | crcByte | crcFlush | crcRead | decByte | decSync => rfl

/-- R180: a refused operation leaves the Encoder and the stream as they are. -/
theorem encoderHolds_afterOp_of_refused (o : Op) (s : State) (h : EncoderHistory) (hs : s.encoderHolds h)
    (reason : RefusalReason) (ho : o ≠ .reset) (hr : opAnswer o s = .refused reason) :
    (afterOp o s).encoderHolds (encoderEvent h (o, opAnswer o s)) := by
  rw [afterOp_of_refused o s reason hr, hr, encoderEvent_refused h o reason ho]
  exact hs

/-- R132: a command is accepted only when everything before it has been emitted, and its whole frame is then to emit. -/
theorem encoderHolds_afterOp_encLoad (op : Byte) (arg : Word) (s : State) (h : EncoderHistory) (hs : s.encoderHolds h) :
    (afterOp (.encLoad op arg) s).encoderHolds (encoderEvent h (.encLoad op arg, opAnswer (.encLoad op arg) s)) := by
  by_cases hacc : isCommand op = false ∨ s.encCnt ≠ 0#3
  · obtain ⟨reason, hr⟩ := opAnswer_encLoad_refused op arg s hacc
    exact encoderHolds_afterOp_of_refused _ s h hs reason (by simp) hr
  · obtain ⟨hc, hidle⟩ : isCommand op = true ∧ s.encCnt = 0#3 := by simpa using hacc
    obtain ⟨hstream, hcommands⟩ := hs
    have hemitted : h.emitted = h.loaded.flatMap (fun c => frameBytes c.1 c.2) := by
      simpa [hidle, encRemaining] using hstream
    have hanswer : opAnswer (.encLoad op arg) s = .done := by simp [opAnswer, hc, hidle]
    rw [afterOp_encLoad_of_idle op arg s hc hidle, hanswer]
    refine ⟨?_, List.forall_mem_append.2 ⟨hcommands, List.forall_mem_singleton.2 hc⟩⟩
    show h.emitted ++ encRemaining 5 (frameValue op arg) = (h.loaded ++ [(op, arg)]).flatMap _
    rw [encRemaining_frameValue, hemitted, List.flatMap_append, List.flatMap_singleton]

/-- R133: the byte emitted is the first of those still to emit. -/
theorem encoderHolds_afterOp_encPop (s : State) (h : EncoderHistory) (hs : s.encoderHolds h) :
    (afterOp .encPop s).encoderHolds (encoderEvent h (.encPop, opAnswer .encPop s)) := by
  by_cases hidle : s.encCnt = 0#3
  · exact encoderHolds_afterOp_of_refused _ s h hs .encoderIdle (by simp) (if_pos hidle)
  · obtain ⟨hstream, hcommands⟩ := hs
    rw [opAnswer, if_neg hidle, afterOp_encPop_of_busy s hidle]
    rw [encRemaining_of_ne_zero _ _ hidle] at hstream
    exact ⟨(List.append_assoc _ [encTopByte s.encSr] _).trans hstream, hcommands⟩

/-- Every operation keeps the stream the frames of the commands accepted. -/
theorem encoderHolds_afterOp (o : Op) (s : State) (h : EncoderHistory) (hs : s.encoderHolds h) :
    (afterOp o s).encoderHolds (encoderEvent h (o, opAnswer o s)) := by
  have hother (u : BlockUnit) (hu : o.unit = some u) (hne : u ≠ .encoder) :
      (afterOp o s).encoderHolds (encoderEvent h (o, opAnswer o s)) := by
    obtain ⟨hsr, hcnt⟩ := afterOp_leaves_other_units o s u .encoder hu hne
    rw [encoderEvent_of_other_unit h o _ u hu hne, State.encoderHolds, hsr, hcnt]
    exact hs
  cases o with
  | reset => exact ⟨rfl, List.forall_mem_nil _⟩
  | encLoad op arg => exact encoderHolds_afterOp_encLoad op arg s h hs
  | encPop => exact encoderHolds_afterOp_encPop s h hs
  | crcInit | crcWord | crcByte | crcFlush | crcRead => exact hother .engine rfl (by decide)
  | decByte | decSync => exact hother .decoder rfl (by decide)

theorem encoderAgrees_afterOp (o : Op) (s : State) (hs : s.encoderAgrees) : (afterOp o s).encoderAgrees := by
  rw [encoderAgrees_iff_encoderHolds] at hs ⊢
  rw [afterOp_transcript_eq, encoderHistory_append]
  exact ⟨encoderHolds_afterOp o s _ hs.1, encCnt_afterOp_le o s hs.2⟩

/-- Settles O49: each operation keeps the stream and the counter's range, and the step performs one. -/
theorem everyStepKeepsFramesWholeAndInOrder : Obligations.EveryStepKeepsFramesWholeAndInOrder :=
  step_keeps State.encoderAgrees encoderAgrees_afterOp fun _ _ h => h

end Sys2Proof.Machine
end

section
/-! PROOFS on the frame decoder (43_frame_decoder.md): a frame and its five bytes, `DEC_BYTE` and `DEC_SYNC`, `receive`,
and the frame-byte-in stream. -/

namespace Sys2Proof.Machine

/-! ### A frame and its five bytes -/

/-- R140, R141 c: `decode` gives the one frame whose bytes these are, with the class of its opcode. -/
theorem decodeFrame_eq_some_iff (bs : List Byte) (f : Frame) :
    decodeFrame bs = some f ↔ bs = frameBytes f.op f.arg ∧ f.cls = classOf f.op := by
  obtain ⟨op, arg, cls⟩ := f
  match bs with
  | [b0, b1, b2, b3, b4] =>
    have hbytes := five_eq_frameBytes_append_iff b0 b1 b2 b3 b4 [] [] op arg
    rw [List.append_nil] at hbytes
    simp only [decodeFrame, hbytes, Option.some.injEq, Frame.mk.injEq, and_true]
    constructor
    · rintro ⟨rfl, rfl, rfl⟩
      exact ⟨⟨rfl, rfl⟩, rfl⟩
    · rintro ⟨⟨rfl, rfl⟩, rfl⟩
      exact ⟨rfl, rfl, rfl⟩
  | [] | [_] | [_, _] | [_, _, _] | [_, _, _, _] | _ :: _ :: _ :: _ :: _ :: _ :: _ => simp [decodeFrame, frameBytes]

/-- Settles O26: `decode` by its definition, and the bytes it decodes are those of the frame it gives. -/
theorem encodeAndDecodeFramesRoundTrip : Obligations.EncodeAndDecodeFramesRoundTrip := by
  refine ⟨fun _ _ _ _ _ => rfl, fun op arg bs h => ?_, fun bs f h => ?_⟩
  · exact (decodeFrame_eq_some_iff bs _).2 ⟨eq_frameBytes_of_encodeCommand op arg bs h, rfl⟩
  · obtain ⟨rfl, -⟩ := (decodeFrame_eq_some_iff bs f).1 h
    exact ⟨rfl, encodeCommand_of_command f.op f.arg⟩

/-! ### `DEC_BYTE` and `DEC_SYNC` -/

theorem decCnt_afterOp_decByte (b : Byte) (s : State) (h : s.decCnt ≤ 4#3) :
    (afterOp (.decByte b) s).decCnt.toNat = (s.decCnt.toNat + 1) % 5 := by
  by_cases hd : s.decCnt < 4#3
  · rw [afterOp_decByte_of_partial b s hd, State.receiveByte_decCnt]
    bv_omega
  · rw [afterOp_decByte_of_full b s hd, State.deliver_decCnt]
    bv_omega

/-- R26, R142: a byte that does not complete a frame joins the bytes held. -/
theorem decHeld_afterOp_decByte_of_partial (b : Byte) (s : State) (h : s.decCnt < 4#3) :
    decHeld (afterOp (.decByte b) s).decCnt.toNat (afterOp (.decByte b) s).decSr =
      decHeld s.decCnt.toNat s.decSr ++ [b] := by
  have hsucc : (s.decCnt + 1#3).toNat = s.decCnt.toNat + 1 := by bv_omega
  rw [afterOp_decByte_of_partial b s h, State.receiveByte_decCnt, State.receiveByte_decSr, hsucc,
    decHeld_decShift _ _ _ h]

/-- R142: once a frame is delivered no byte is held. -/
theorem decHeld_afterOp_decByte_of_full (b : Byte) (s : State) (h : ¬ s.decCnt < 4#3) :
    decHeld (afterOp (.decByte b) s).decCnt.toNat (afterOp (.decByte b) s).decSr = [] := by
  rw [afterOp_decByte_of_full b s h]
  rfl

theorem opAnswer_decByte_of_partial (b : Byte) (s : State) (h : s.decCnt < 4#3) :
    opAnswer (.decByte b) s = .nothing := if_pos h

/-- R140, R142: the fifth byte is answered with `decode` of the four bytes held and itself. -/
theorem opAnswer_decByte_of_full (b : Byte) (s : State) (h : s.decCnt = 4#3) :
    ∃ f, opAnswer (.decByte b) s = .frame f ∧ decodeFrame (decHeld s.decCnt.toNat s.decSr ++ [b]) = some f := by
  refine ⟨_, if_neg (by simp [h]), ?_⟩
  rw [h, decShift_eq_wordOfBytes]
  rfl

/-- Settles O35: below four bytes held the byte is collected; else the frame is delivered. -/
theorem decByteDeliversOnTheFifthByte : Obligations.DecByteDeliversOnTheFifthByte := by
  intro s b
  refine ⟨_, perform_eq _ s, ?_⟩
  by_cases hd : s.decCnt < 4#3
  · have hlt : s.decCnt.toNat < 4 := hd
    have hsucc : (s.decCnt + 1#3).toNat = s.decCnt.toNat + 1 := by bv_omega
    rw [afterOp_decByte_of_partial b s hd]
    refine ⟨rfl, rfl, rfl, rfl, rfl, rfl, rfl, fun _ => ⟨rfl, hsucc, ?_, rfl⟩, fun hge => absurd hlt (by omega)⟩
    rw [decMidframe_iff, State.receiveByte_decCnt, hsucc]
    exact Nat.succ_ne_zero _
  · rw [afterOp_decByte_of_full b s hd]
    refine ⟨rfl, rfl, rfl, rfl, rfl, rfl, rfl, fun hlt => absurd hlt hd, fun _ => ⟨rfl, rfl, rfl, ?_⟩⟩
    rw [State.deliver_transcript, wordByte_decShift_zero]
    rfl

/-- Settles O36. -/
theorem decSyncReturnsToTheBoundary : Obligations.DecSyncReturnsToTheBoundary := fun s =>
  ⟨afterOp .decSync s, perform_eq .decSync s, rfl, rfl, rfl, rfl, rfl, rfl, rfl, rfl, rfl, rfl⟩

/-- R26, R71: the frame value completed, by the four bytes held and the fifth. -/
theorem frameValue_of_held_bytes (sr : Word) (b : Byte) :
    frameValue (wordByte sr 3) (wordOfBytes (wordByte sr 2) (wordByte sr 1) (wordByte sr 0) b) =
      completedFrame sr b := by
  rw [← decShift_eq_wordOfBytes, ← frameOpcode_completedFrame sr b, ← frameArg_completedFrame sr b,
    frameValue_fields]

/-- Settles O33: the five bytes decode by the frame value that the step completes. -/
theorem stepRunsTheDecodedInstruction : Obligations.StepRunsTheDecodedInstruction := by
  intro s b rest i hp hcnt hi
  rw [decodeBytes_five, except_map_pair_eq_ok_iff, frameValue_of_held_bytes] at hi
  rw [step_runs_completed_frame s b rest (BitVec.not_lt.2 hcnt) hp]
  exact runFrame_of_decodes _ i _ hi.1

/-! ### The answers to a sequence of operations -/

/-- What the operations of a sequence answer when every one of them is performed. -/
def opAnswers : List Op → State → List OpResult
  | [], _ => []
  | o :: ops, s => opAnswer o s :: opAnswers ops (afterOp o s)

@[simp] theorem length_opAnswers (ops : List Op) (s : State) : (opAnswers ops s).length = ops.length := by
  induction ops generalizing s with
  | nil => rfl
  | cons o ops ih => simp [opAnswers, ih]

theorem opAnswers_append (os ps : List Op) (s : State) :
    opAnswers (os ++ ps) s = opAnswers os s ++ opAnswers ps (afterOps os s) := by
  induction os generalizing s with
  | nil => rfl
  | cons o os ih => simp [opAnswers, ih]

theorem afterOps_transcript (ops : List Op) (s : State) :
    (afterOps ops s).transcript = s.transcript ++ ops.zip (opAnswers ops s) := by
  induction ops generalizing s with
  | nil => simp [opAnswers]
  | cons o ops ih => simp [opAnswers, ih, afterOp_transcript_eq]

@[simp] theorem resultsAfter_afterOps (ops : List Op) (s : State) :
    resultsAfter s.transcript.length (afterOps ops s).transcript = opAnswers ops s := by
  rw [resultsAfter, afterOps_transcript, List.drop_left, List.map_snd_zip (length_opAnswers ops s).le]

/-! ### `receive` -/

/-- R142: no byte is refused, so `receive` runs to its end. -/
theorem performAll_receive (bs : List Byte) (s : State) :
    performAll (receive bs) s = .next (afterOps (receive bs) s) := by
  have h := performAll_append_of_never_refused (receive bs) [] s (by simp [receive])
  rwa [List.append_nil] at h

theorem receive_cons (b : Byte) (bs : List Byte) : receive (b :: bs) = .decByte b :: receive bs := rfl

theorem receive_append (bs cs : List Byte) : receive (bs ++ cs) = receive bs ++ receive cs := List.map_append

@[simp] theorem length_receive (bs : List Byte) : (receive bs).length = bs.length := List.length_map _

/-- R144: `DEC_CNT` counts the bytes received modulo 5. -/
theorem decCnt_afterOps_receive (bs : List Byte) (s : State) (h : s.decCnt ≤ 4#3) :
    (afterOps (receive bs) s).decCnt.toNat = (s.decCnt.toNat + bs.length) % 5 := by
  induction bs generalizing s with
  | nil =>
    have hle : s.decCnt.toNat ≤ 4 := h
    exact (Nat.mod_eq_of_lt (Nat.lt_succ_of_le hle)).symm
  | cons b bs ih =>
    rw [receive_cons, afterOps_cons, ih _ (decCnt_afterOp_le _ s h), decCnt_afterOp_decByte b s h, List.length_cons]
    omega

theorem length_decHeld (n : Nat) (sr : Word) : (decHeld n sr).length = n := by simp [decHeld]

/-- R144: the answer to the `n`-th byte of a stream read in groups of five: a record if the byte completes a group, and
then `decode` of that group. -/
def answersNthByte (stream : List Byte) (n : Nat) (r : Option OpResult) : Prop :=
  (n % 5 ≠ 0 → r = some .nothing) ∧
    (n % 5 = 0 → ∃ f, r = some (.frame f) ∧ decodeFrame ((stream.drop (n - 5)).take 5) = some f)

/-- A whole group ahead of the stream changes no answer to the bytes behind it. -/
theorem answersNthByte_group_append (group stream : List Byte) (n : Nat) (r : Option OpResult) (hg : group.length = 5)
    (hn : 0 < n) (h : answersNthByte stream n r) : answersNthByte (group ++ stream) (5 + n) r := by
  obtain ⟨hnothing, hframe⟩ := h
  rw [answersNthByte, Nat.add_mod_left]
  refine ⟨hnothing, fun hmod => ?_⟩
  have hdrop : 5 + n - 5 = group.length + (n - 5) := by omega
  rw [hdrop, List.drop_length_add_append]
  exact hframe hmod

/-- R142: the next byte is answered by its place in the stream of the bytes held, itself and those to come. -/
theorem answersNthByte_decByte (b : Byte) (bs : List Byte) (s : State) (h : s.decCnt ≤ 4#3) :
    answersNthByte (decHeld s.decCnt.toNat s.decSr ++ b :: bs) (s.decCnt.toNat + 1)
      (some (opAnswer (.decByte b) s)) := by
  by_cases hd : s.decCnt < 4#3
  · have hlt : s.decCnt.toNat < 4 := hd
    exact ⟨fun _ => congrArg some (opAnswer_decByte_of_partial b s hd), fun hmod => by omega⟩
  · have hfull : s.decCnt = 4#3 := by bv_omega
    obtain ⟨f, hf, hdecode⟩ := opAnswer_decByte_of_full b s hfull
    have hgroup : (decHeld s.decCnt.toNat s.decSr ++ [b]).length = 5 := by simp [length_decHeld, hfull]
    have hn : s.decCnt.toNat + 1 = 5 := by simp [hfull]
    rw [List.append_cons, hn]
    refine ⟨fun hmod => absurd rfl hmod, fun _ => ⟨f, congrArg some hf, ?_⟩⟩
    rw [Nat.sub_self, List.drop_zero, List.take_left' hgroup, hdecode]

/-- R142, R144: the bytes behind the next one keep their places in the stream once it has been received. -/
theorem answersNthByte_of_afterOp_decByte (b : Byte) (bs : List Byte) (s : State) (h : s.decCnt ≤ 4#3) (n : Nat)
    (hn : 0 < n) (r : Option OpResult)
    (hr : answersNthByte (decHeld (afterOp (.decByte b) s).decCnt.toNat (afterOp (.decByte b) s).decSr ++ bs)
      ((afterOp (.decByte b) s).decCnt.toNat + n) r) :
    answersNthByte (decHeld s.decCnt.toNat s.decSr ++ b :: bs) (s.decCnt.toNat + 1 + n) r := by
  have hcnt := decCnt_afterOp_decByte b s h
  rw [List.append_cons]
  by_cases hd : s.decCnt < 4#3
  · have hlt : s.decCnt.toNat + 1 < 5 := Nat.succ_lt_succ hd
    rwa [decHeld_afterOp_decByte_of_partial b s hd, hcnt, Nat.mod_eq_of_lt hlt] at hr
  · have hfull : s.decCnt = 4#3 := by bv_omega
    rw [decHeld_afterOp_decByte_of_full b s hd, hcnt, hfull, List.nil_append] at hr
    rw [hfull]
    exact answersNthByte_group_append _ bs n r (by simp [length_decHeld]) hn (by simpa using hr)

/-- R144: every byte received is answered by its place in the stream of the bytes held followed by those received. -/
theorem answersNthByte_receive (bs : List Byte) (s : State) (h : s.decCnt ≤ 4#3) (j : Nat) (hj : j < bs.length) :
    answersNthByte (decHeld s.decCnt.toNat s.decSr ++ bs) (s.decCnt.toNat + j + 1) (opAnswers (receive bs) s)[j]? := by
  induction bs generalizing s j with
  | nil => exact absurd hj (Nat.not_lt_zero j)
  | cons b bs ih =>
    cases j with
    | zero => exact answersNthByte_decByte b bs s h
    | succ j =>
      have hnext := ih _ (decCnt_afterOp_le (.decByte b) s h) j (Nat.lt_of_succ_lt_succ hj)
      have hplace : s.decCnt.toNat + (j + 1) + 1 = s.decCnt.toNat + 1 + (j + 1) := by omega
      rw [hplace]
      exact answersNthByte_of_afterOp_decByte b bs s h (j + 1) (Nat.succ_pos j) _ hnext

/-- Settles O37: the state that `receive` leaves, and every answer by its place in the stream. -/
theorem receiveDecodesGroupsOfFive : Obligations.ReceiveDecodesGroupsOfFive := by
  intro s bs ⟨_, hle⟩
  refine ⟨_, performAll_receive bs s, decCnt_afterOps_receive bs s hle, ?_⟩
  rw [resultsAfter_afterOps]
  exact ⟨by simp, answersNthByte_receive bs s hle⟩

/-! ### Frames received one after the other -/

theorem length_flatMap_frameBytes (frames : List (Byte × Word)) :
    (frames.flatMap (fun c => frameBytes c.1 c.2)).length = 5 * frames.length := by
  simp [List.length_flatMap, frameBytes, Nat.mul_comm]

/-- R144: whole frames leave the Decoder at the boundary they found it at. -/
theorem decCnt_afterOps_receive_frames (frames : List (Byte × Word)) (s : State) (h : s.decCnt = 0#3) :
    (afterOps (receive (frames.flatMap (fun c => frameBytes c.1 c.2))) s).decCnt = 0#3 := by
  apply BitVec.eq_of_toNat_eq
  rw [decCnt_afterOps_receive _ s (by simp [h]), length_flatMap_frameBytes]
  simp [h]

/-- R140, R142: from a frame boundary the five bytes of a frame are answered with the frame, at the last of them. -/
theorem opAnswers_receive_frameBytes (op : Byte) (arg : Word) (s : State) (h : s.decCnt = 0#3) :
    opAnswers (receive (frameBytes op arg)) s =
      [.nothing, .nothing, .nothing, .nothing, .frame { op := op, arg := arg, cls := classOf op }] := by
  simp [receive, frameBytes, opAnswers, opAnswer, afterOp, h, decShift_eq_wordOfBytes]

/-- R144: so are the bytes of frames one after the other. -/
theorem opAnswers_receive_frames (frames : List (Byte × Word)) (s : State) (h : s.decCnt = 0#3) :
    opAnswers (receive (frames.flatMap (fun c => frameBytes c.1 c.2))) s =
      frames.flatMap (fun c =>
        [.nothing, .nothing, .nothing, .nothing, .frame { op := c.1, arg := c.2, cls := classOf c.1 }]) := by
  induction frames generalizing s with
  | nil => rfl
  | cons c frames ih =>
    have hboundary := decCnt_afterOps_receive_frames [c] s h
    rw [List.flatMap_singleton] at hboundary
    rw [List.flatMap_cons, receive_append, opAnswers_append, opAnswers_receive_frameBytes _ _ s h, ih _ hboundary]
    rfl

/-- Settles O38: the frames among those answers, and the boundary after them. -/
theorem receivingFramesDeliversThemInOrder : Obligations.ReceivingFramesDeliversThemInOrder := by
  intro s frames h
  refine ⟨_, performAll_receive _ s, decCnt_afterOps_receive_frames frames s h, ?_⟩
  rw [framesAfter, resultsAfter_afterOps, opAnswers_receive_frames frames s h, List.filterMap_flatMap]
  exact List.map_eq_flatMap.symm

/-! ### The frame-byte-in stream -/

/-- The bytes received are those of the frames delivered and the bytes held: `State.decoderAgrees` for a given history,
without the range of the counter. -/
def State.decoderHolds (s : State) (h : DecoderHistory) : Prop :=
  h.received = h.delivered.flatMap (fun f => frameBytes f.op f.arg) ++ decHeld s.decCnt.toNat s.decSr ∧
    ∀ f ∈ h.delivered, f.cls = classOf f.op

theorem decoderAgrees_iff_decoderHolds (s : State) :
    s.decoderAgrees ↔ s.decoderHolds (decoderHistory s.transcript) ∧ s.decCnt ≤ 4#3 :=
  and_assoc.symm

theorem decoderHistory_append (tr : List (Op × OpResult)) (e : Op × OpResult) :
    decoderHistory (tr ++ [e]) = decoderEvent (decoderHistory tr) e := by
  simp [decoderHistory]

/-- An operation of the engine or the Encoder adds nothing to the stream, whatever its answer. -/
theorem decoderEvent_of_other_unit (h : DecoderHistory) (o : Op) (r : OpResult) (u : BlockUnit) (hu : o.unit = some u)
    (hne : u ≠ .decoder) : decoderEvent h (o, r) = h := by
  cases o with
  | reset => cases hu
  | decByte | decSync => exact absurd (Option.some.inj hu).symm hne
  | crcInit | crcWord | crcByte | crcFlush | crcRead | encLoad | encPop => rfl

/-- R142: a byte joins those held, or completes a frame made of them and of itself. -/
theorem decoderHolds_afterOp_decByte (b : Byte) (s : State) (h : DecoderHistory) (hle : s.decCnt ≤ 4#3)
    (hs : s.decoderHolds h) :
    (afterOp (.decByte b) s).decoderHolds (decoderEvent h (.decByte b, opAnswer (.decByte b) s)) := by
  obtain ⟨hstream, hclasses⟩ := hs
  by_cases hd : s.decCnt < 4#3
  · rw [opAnswer_decByte_of_partial b s hd, State.decoderHolds, decHeld_afterOp_decByte_of_partial b s hd,
      ← List.append_assoc]
    exact ⟨congrArg (· ++ [b]) hstream, hclasses⟩
  · obtain ⟨f, hf, hdecode⟩ := opAnswer_decByte_of_full b s (by bv_omega)
    obtain ⟨hbytes, hclass⟩ := (decodeFrame_eq_some_iff _ f).1 hdecode
    rw [hf, State.decoderHolds, decHeld_afterOp_decByte_of_full b s hd]
    refine ⟨?_, List.forall_mem_append.2 ⟨hclasses, List.forall_mem_singleton.2 hclass⟩⟩
    show h.received ++ [b] = (h.delivered ++ [f]).flatMap _ ++ []
    rw [hstream, List.append_nil, List.flatMap_append, List.flatMap_singleton, ← hbytes, List.append_assoc]

/-- Every operation keeps the bytes received accounted for. -/
theorem decoderHolds_afterOp (o : Op) (s : State) (h : DecoderHistory) (hle : s.decCnt ≤ 4#3)
    (hs : s.decoderHolds h) :
    (afterOp o s).decoderHolds (decoderEvent h (o, opAnswer o s)) := by
  have hother (u : BlockUnit) (hu : o.unit = some u) (hne : u ≠ .decoder) :
      (afterOp o s).decoderHolds (decoderEvent h (o, opAnswer o s)) := by
    obtain ⟨hsr, hcnt⟩ := afterOp_leaves_other_units o s u .decoder hu hne
    rw [decoderEvent_of_other_unit h o _ u hu hne, State.decoderHolds, hsr, hcnt]
    exact hs
  cases o with
  | reset => exact ⟨rfl, List.forall_mem_nil _⟩
  | decByte b => exact decoderHolds_afterOp_decByte b s h hle hs
  | decSync => exact ⟨rfl, List.forall_mem_nil _⟩
  | crcInit | crcWord | crcByte | crcFlush | crcRead => exact hother .engine rfl (by decide)
  | encLoad | encPop => exact hother .encoder rfl (by decide)

theorem decoderAgrees_afterOp (o : Op) (s : State) (hs : s.decoderAgrees) : (afterOp o s).decoderAgrees := by
  rw [decoderAgrees_iff_decoderHolds] at hs ⊢
  obtain ⟨hholds, hle⟩ := hs
  rw [afterOp_transcript_eq, decoderHistory_append]
  exact ⟨decoderHolds_afterOp o s _ hle hholds, decCnt_afterOp_le o s hle⟩

/-- Settles O50: each operation keeps the stream and the counter's range, and the step performs one. -/
theorem everyStepKeepsReceivedBytesAccountedFor : Obligations.EveryStepKeepsReceivedBytesAccountedFor :=
  step_keeps State.decoderAgrees decoderAgrees_afterOp fun _ _ h => h

end Sys2Proof.Machine
end

section
/-! PROOFS on the transport (44_protocol_context.md sections 1 and 2): what one read can do, what one read of a
wait does to the wait, and how a wait ends. -/

namespace Sys2Proof.Machine

/-! ### One read (R151) -/

/-- The characters that have arrived and are unread and those on their way, in order. -/
def Transport.chars (t : Transport) : List Char := t.unread ++ t.incoming.map Arrival.char

/-- R151: what a read of `t` by a deadline can come to. -/
inductive ReadBy (deadlineMs : Nat) (t : Transport) : ReadEvent → Prop where
  /-- the first complete line, by the deadline -/
  | line (l : Line) (after : Transport) (hstart : t.nowMs ≤ after.nowMs) (hend : after.nowMs ≤ deadlineMs)
      (hline : ∃ text, l = text ++ ['\n'] ∧ '\n' ∉ text) (hchars : l ++ after.chars = t.chars) :
      ReadBy deadlineMs t ⟨.line l, after⟩
  /-- the timeout signal at the deadline, with no newline received and none to be received by then -/
  | noLine (after : Transport) (hend : after.nowMs = deadlineMs) (hnone : '\n' ∉ after.unread)
      (hlate : ∀ a rest, after.incoming = a :: rest → deadlineMs < a.atMs) (hchars : after.chars = t.chars) :
      ReadBy deadlineMs t ⟨.noLine, after⟩

theorem readUntil_of_line (deadlineMs nowMs : Nat) (unread : List Char) (incoming : List Arrival) (l : Line)
    (rest : List Char) (hl : takeLine unread = some (l, rest)) :
    readUntil deadlineMs nowMs unread incoming = ⟨.line l, ⟨nowMs, rest, incoming⟩⟩ := by
  cases incoming <;> simp only [readUntil, hl]

theorem readBy_readUntil_of_line (deadlineMs nowMs : Nat) (unread : List Char) (incoming : List Arrival) (l : Line)
    (rest : List Char) (hl : takeLine unread = some (l, rest)) (h : nowMs ≤ deadlineMs) :
    ReadBy deadlineMs ⟨nowMs, unread, incoming⟩ (readUntil deadlineMs nowMs unread incoming) := by
  obtain ⟨hsplit, hline⟩ := takeLine_some unread l rest hl
  rw [readUntil_of_line deadlineMs nowMs unread incoming l rest hl]
  exact .line l _ le_rfl h hline (by simp [Transport.chars, hsplit])

theorem readBy_readUntil (deadlineMs nowMs : Nat) (unread : List Char) (incoming : List Arrival)
    (h : nowMs ≤ deadlineMs) :
    ReadBy deadlineMs ⟨nowMs, unread, incoming⟩ (readUntil deadlineMs nowMs unread incoming) := by
  induction incoming generalizing nowMs unread with
  | nil =>
    cases hl : takeLine unread with
    | some p => exact readBy_readUntil_of_line deadlineMs nowMs unread [] p.1 p.2 hl h
    | none =>
      simp only [readUntil, hl]
      exact .noLine _ rfl ((takeLine_none_iff unread).1 hl) nofun rfl
  | cons a incoming ih =>
    cases hl : takeLine unread with
    | some p => exact readBy_readUntil_of_line deadlineMs nowMs unread (a :: incoming) p.1 p.2 hl h
    | none =>
      simp only [readUntil, hl]
      by_cases ha : a.atMs ≤ deadlineMs
      · have hchars : Transport.chars ⟨max nowMs a.atMs, unread ++ [a.char], incoming⟩ =
            Transport.chars ⟨nowMs, unread, a :: incoming⟩ := by simp [Transport.chars]
        rw [if_pos ha]
        have hrest := ih (max nowMs a.atMs) (unread ++ [a.char]) (max_le h ha)
        generalize readUntil deadlineMs (max nowMs a.atMs) (unread ++ [a.char]) incoming = e at hrest ⊢
        cases hrest with
        | line l after hstart hend hline hc =>
          exact .line l after ((le_max_left _ _).trans hstart) hend hline (hc.trans hchars)
        | noLine after hend hnone hlate hc => exact .noLine after hend hnone hlate (hc.trans hchars)
      · rw [if_neg ha]
        refine .noLine _ rfl ((takeLine_none_iff unread).1 hl) ?_ rfl
        rintro _ _ ⟨⟩
        exact Nat.lt_of_not_le ha

theorem Transport.readBy_readLine (t : Transport) (timeoutMs : Nat) :
    ReadBy (t.nowMs + timeoutMs) t (t.readLine timeoutMs) :=
  readBy_readUntil _ _ _ _ (Nat.le_add_right _ _)

/-- R151: what a discard loses has arrived, and what it leaves has not. -/
theorem Transport.discardInput_incoming (t : Transport) :
    (∃ gone, t.incoming = gone ++ t.discardInput.incoming ∧ ∀ a ∈ gone, a.atMs ≤ t.nowMs) ∧
      (∀ a rest, t.discardInput.incoming = a :: rest → t.nowMs < a.atMs) := by
  constructor
  · refine ⟨t.incoming.takeWhile fun a => decide (a.atMs ≤ t.nowMs), List.takeWhile_append_dropWhile.symm, ?_⟩
    intro a ha
    simpa using List.mem_takeWhile_imp ha
  · intro a rest h
    have hfirst := List.dropWhile_get_zero_not (fun a : Arrival => decide (a.atMs ≤ t.nowMs)) t.incoming
    rw [show t.incoming.dropWhile (fun a => decide (a.atMs ≤ t.nowMs)) = a :: rest from h] at hfirst
    simpa using hfirst

/-- Settles O55: by whether the read returns a line; a discard drops exactly the arrivals up to now. -/
theorem readLineReturnsWholeLinesOnly : Obligations.ReadLineReturnsWholeLinesOnly := by
  intro t timeoutMs
  have hread := t.readBy_readLine timeoutMs
  generalize t.readLine timeoutMs = e at hread ⊢
  cases hread with
  | line l after hstart hend hline hchars =>
    refine ⟨hstart, hend, ?_, nofun, rfl, rfl, t.discardInput_incoming⟩
    rintro _ ⟨⟩
    exact ⟨hline, by rw [List.append_assoc]; exact hchars⟩
  | noLine after hend hnone hlate hchars =>
    exact ⟨hend ▸ Nat.le_add_right _ _, hend.le, nofun, fun _ => ⟨hend, hnone, hlate, hchars⟩, rfl, rfl,
      t.discardInput_incoming⟩

/-! ### The reads of a wait (R153, R154) -/

/-- R153 "containing": the pattern stands in the line without a gap. -/
theorem containsPattern_iff_infix (pattern l : Line) : containsPattern pattern l = true ↔ pattern <:+: l := by
  induction l with
  | nil => simp [containsPattern]
  | cons c rest ih => rw [containsPattern, Bool.or_eq_true, List.isPrefixOf_iff_prefix, ih, List.infix_cons_iff]

section
variable (pattern : Line) (deadlineMs : Nat) (t : Transport) (rest : List ReadEvent)

theorem awaitReads_cons_late (e : ReadEvent) (h : deadlineMs < e.after.nowMs) :
    awaitReads pattern deadlineMs t (e :: rest) = ⟨.timedOut, linesOf [e], e.after⟩ := by
  rw [awaitReads, if_pos h]

theorem awaitReads_cons_noLine (u : Transport) (h : u.nowMs ≤ deadlineMs) :
    awaitReads pattern deadlineMs t (⟨.noLine, u⟩ :: rest) = awaitReads pattern deadlineMs u rest := by
  rw [awaitReads, if_neg (Nat.not_lt_of_le h)]

theorem awaitReads_cons_match (l : Line) (u : Transport) (h : u.nowMs ≤ deadlineMs)
    (hl : containsPattern pattern l = true) :
    awaitReads pattern deadlineMs t (⟨.line l, u⟩ :: rest) = ⟨.matched, [l], u⟩ := by
  simp only [awaitReads, if_neg (Nat.not_lt_of_le h), if_pos hl]

theorem awaitReads_cons_other (l : Line) (u : Transport) (h : u.nowMs ≤ deadlineMs)
    (hl : containsPattern pattern l = false) :
    awaitReads pattern deadlineMs t (⟨.line l, u⟩ :: rest) =
      ⟨(awaitReads pattern deadlineMs u rest).outcome, l :: (awaitReads pattern deadlineMs u rest).lines,
        (awaitReads pattern deadlineMs u rest).after⟩ := by
  simp [awaitReads, if_neg (Nat.not_lt_of_le h), hl]

end

@[simp] theorem linesOf_nil : linesOf [] = [] := rfl

@[simp] theorem linesOf_cons_line (l : Line) (u : Transport) (es : List ReadEvent) :
    linesOf (⟨.line l, u⟩ :: es) = l :: linesOf es := rfl

@[simp] theorem linesOf_cons_noLine (u : Transport) (es : List ReadEvent) :
    linesOf (⟨.noLine, u⟩ :: es) = linesOf es := rfl

theorem linesOf_append (es fs : List ReadEvent) : linesOf (es ++ fs) = linesOf es ++ linesOf fs :=
  List.filterMap_append

/-- A read that a wait goes on after: in time, and without a line that has the pattern. -/
def ReadEvent.passes (pattern : Line) (deadlineMs : Nat) (e : ReadEvent) : Prop :=
  e.after.nowMs ≤ deadlineMs ∧ ∀ l, e.result = .line l → containsPattern pattern l = false

/-- R153, R154: reads that a wait goes on after add their lines and nothing else. -/
theorem awaitReads_append_of_passes (pattern : Line) (deadlineMs : Nat) (t : Transport) (before reads : List ReadEvent)
    (h : ∀ e ∈ before, e.passes pattern deadlineMs) :
    ∃ u, awaitReads pattern deadlineMs t (before ++ reads) =
      ⟨(awaitReads pattern deadlineMs u reads).outcome, linesOf before ++ (awaitReads pattern deadlineMs u reads).lines,
        (awaitReads pattern deadlineMs u reads).after⟩ := by
  induction before generalizing t with
  | nil => exact ⟨t, rfl⟩
  | cons e before ih =>
    obtain ⟨⟨hin, hother⟩, hbefore⟩ := List.forall_mem_cons.1 h
    obtain ⟨u, hu⟩ := ih e.after hbefore
    refine ⟨u, ?_⟩
    obtain ⟨_ | _, after⟩ := e
    case line l => rw [List.cons_append, awaitReads_cons_other _ _ _ _ l after hin (hother l rfl), hu]; rfl
    case noLine => rw [List.cons_append, awaitReads_cons_noLine _ _ _ _ after hin, hu]; rfl

/-- Settles O52: the wait goes on after the reads before; then the next read, or the end of the reads, decides. -/
theorem awaitMatchesTheFirstLineInTime : Obligations.AwaitMatchesTheFirstLineInTime := by
  intro pattern deadlineMs t before after hbefore
  refine ⟨fun u l hl hin => ?_, fun e hlate => ?_, ?_, fun l => ?_⟩
  · obtain ⟨v, hv⟩ := awaitReads_append_of_passes pattern deadlineMs t before (⟨.line l, u⟩ :: after) hbefore
    rw [hv, awaitReads_cons_match _ _ _ _ l u hin hl]
  · obtain ⟨v, hv⟩ := awaitReads_append_of_passes pattern deadlineMs t before (e :: after) hbefore
    rw [hv, awaitReads_cons_late _ _ _ _ e hlate, linesOf_append]
  · obtain ⟨v, hv⟩ := awaitReads_append_of_passes pattern deadlineMs t before [] hbefore
    rw [List.append_nil] at hv
    rw [hv]
    exact ⟨rfl, List.append_nil _⟩
  · rw [containsPattern_iff_infix]
    exact ⟨fun ⟨a, b, h⟩ => ⟨a, b, h.symm⟩, fun ⟨a, b, h⟩ => ⟨a, b, h.symm⟩⟩

/-! ### How a wait ends (R153, R154) -/

/-- What a wait on the transport `t` until a deadline comes to. -/
structure WaitResult.Ends (r : WaitResult) (pattern : Line) (deadlineMs : Nat) (t : Transport) : Prop where
  timedOut : r.outcome = .timedOut → deadlineMs < r.after.nowMs
  matched : r.outcome = .matched →
    r.after.nowMs ≤ deadlineMs ∧ ∃ l, r.lines.getLast? = some l ∧ containsPattern pattern l = true
  earlier : ∀ l ∈ r.lines.dropLast, containsPattern pattern l = false
  chars : r.lines.flatten ++ r.after.chars = t.chars

theorem WaitResult.Ends.of_noLine {r : WaitResult} {pattern : Line} {deadlineMs : Nat} {t u : Transport}
    (hr : r.Ends pattern deadlineMs u) (hchars : u.chars = t.chars) : r.Ends pattern deadlineMs t :=
  ⟨hr.timedOut, hr.matched, hr.earlier, hr.chars.trans hchars⟩

/-- A line without the pattern is surfaced before what the rest of the wait surfaces. -/
theorem WaitResult.Ends.of_other {r : WaitResult} {pattern : Line} {deadlineMs : Nat} {t u : Transport}
    (hr : r.Ends pattern deadlineMs u) (l : Line) (hl : containsPattern pattern l = false)
    (hchars : l ++ u.chars = t.chars) :
    WaitResult.Ends ⟨r.outcome, l :: r.lines, r.after⟩ pattern deadlineMs t where
  timedOut := hr.timedOut
  matched hm := by
    obtain ⟨hend, m, hlast, hmatch⟩ := hr.matched hm
    exact ⟨hend, m, by simp [List.getLast?_cons, hlast], hmatch⟩
  earlier m hm := by
    by_cases hnil : r.lines = []
    · simp [hnil] at hm
    · rw [List.dropLast_cons_of_ne_nil hnil, List.mem_cons] at hm
      rcases hm with rfl | hm
      · exact hl
      · exact hr.earlier m hm
  chars := by rw [List.flatten_cons, List.append_assoc, hr.chars, hchars]

theorem WaitResult.Ends.of_match (pattern : Line) (deadlineMs : Nat) (t u : Transport) (l : Line)
    (hin : u.nowMs ≤ deadlineMs) (hl : containsPattern pattern l = true) (hchars : l ++ u.chars = t.chars) :
    WaitResult.Ends ⟨.matched, [l], u⟩ pattern deadlineMs t :=
  ⟨nofun, fun _ => ⟨hin, l, rfl, hl⟩, by simp, by simpa using hchars⟩

/-- A wait that a read past the deadline ends. -/
theorem WaitResult.Ends.of_late (pattern : Line) (deadlineMs readDeadlineMs : Nat) (t : Transport) (e : ReadEvent)
    (he : ReadBy readDeadlineMs t e) (hlate : deadlineMs < e.after.nowMs) :
    WaitResult.Ends ⟨.timedOut, linesOf [e], e.after⟩ pattern deadlineMs t := by
  cases he with
  | line l after hstart hend hline hchars => exact ⟨fun _ => hlate, nofun, by simp, by simpa using hchars⟩
  | noLine after hend hnone hincoming hchars => exact ⟨fun _ => hlate, nofun, by simp, by simpa using hchars⟩

/-- R153: enough reads for a wait are those of its milliseconds and of the characters that there are to read, because a
read takes one or the other. -/
theorem awaitReads_nextReads_ends (pattern : Line) (deadlineMs readTimeoutMs n : Nat) (t : Transport)
    (hin : t.nowMs ≤ deadlineMs) (hn : deadlineMs + 1 + t.chars.length ≤ t.nowMs + n) :
    (awaitReads pattern deadlineMs t (t.nextReads readTimeoutMs n)).Ends pattern deadlineMs t := by
  induction n generalizing t with
  | zero => omega
  | succ n ih =>
    have hread := t.readBy_readLine (max 1 readTimeoutMs)
    rw [Transport.nextReads]
    generalize t.readLine (max 1 readTimeoutMs) = e at hread ⊢
    by_cases hlate : deadlineMs < e.after.nowMs
    · rw [awaitReads_cons_late _ _ _ _ e hlate]
      exact .of_late pattern deadlineMs _ t e hread hlate
    have hnext : e.after.nowMs ≤ deadlineMs := Nat.le_of_not_lt hlate
    cases hread with
    | noLine after hend hnone hincoming hchars =>
      have htime : t.nowMs + 1 ≤ after.nowMs := by omega
      rw [awaitReads_cons_noLine _ _ _ _ after hnext]
      exact (ih after hnext (by rw [hchars]; omega)).of_noLine hchars
    | line l after hstart hend hline hchars =>
      by_cases hl : containsPattern pattern l = true
      · rw [awaitReads_cons_match _ _ _ _ l after hnext hl]
        exact .of_match pattern deadlineMs t after l hnext hl hchars
      · have hother : containsPattern pattern l = false := by simpa using hl
        have htaken : after.chars.length + 1 ≤ t.chars.length := by
          obtain ⟨text, rfl, -⟩ := hline
          simp [← hchars]
        rw [awaitReads_cons_other _ _ _ _ l after hnext hother]
        exact (ih after hnext (by omega)).of_other l hother hchars

theorem Transport.await_ends (t : Transport) (p : EnvParams) (pattern : Line) (timeoutMs : Nat) :
    (t.await p pattern timeoutMs).Ends pattern (t.nowMs + timeoutMs) t :=
  awaitReads_nextReads_ends pattern _ _ _ t (Nat.le_add_right _ _) (by simp [Transport.chars]; omega)

/-- Settles O56: the reads offered are enough, so a wait ends past its deadline or by a match in time. -/
theorem awaitEndsByAMatchOrPastTheDeadline : Obligations.AwaitEndsByAMatchOrPastTheDeadline := by
  intro t p pattern timeoutMs
  obtain ⟨htimedOut, hmatched, hearlier, hchars⟩ := t.await_ends p pattern timeoutMs
  exact ⟨htimedOut, hmatched, hearlier, by rw [List.append_assoc]; exact hchars⟩

end Sys2Proof.Machine
end

section
/-! PROOFS on chunking (44_protocol_context.md section 3, R159). -/

namespace Sys2Proof.Machine

/-- The chunks sent before the `k`-th are the first `1024 k` bytes. -/
theorem flatten_nextChunks (image : List Byte) (k : Nat) :
    ((List.range k).map fun i => nextChunk image (chunkSize * i)).flatten = image.take (chunkSize * k) := by
  induction k with
  | zero => simp
  | succ k ih =>
    rw [List.range_succ, List.map_append, List.flatten_append, ih, Nat.mul_succ, List.take_add]
    simp [nextChunk]

theorem length_nextChunk (image : List Byte) (sent : Nat) :
    (nextChunk image sent).length = min chunkSize (image.length - sent) := by
  simp [nextChunk]

/-- `ceil(size/1024)`, from both sides. -/
theorem chunkCount_bounds (size : Nat) :
    size ≤ chunkSize * chunkCount size ∧ chunkSize * chunkCount size < size + chunkSize := by
  simp only [chunkCount, chunkSize]
  omega

@[simp] theorem length_chunks (image : List Byte) : (chunks image).length = chunkCount image.length := by
  simp [chunks]

theorem flatten_chunks (image : List Byte) : (chunks image).flatten = image := by
  rw [chunks, flatten_nextChunks, List.take_of_length_le (chunkCount_bounds image.length).1]

theorem length_of_getElem?_chunks (image : List Byte) (i : Nat) (c : List Byte) (h : (chunks image)[i]? = some c) :
    i < chunkCount image.length ∧ c.length = min chunkSize (image.length - chunkSize * i) := by
  obtain ⟨hi, rfl⟩ := List.getElem?_eq_some_iff.1 h
  exact ⟨by simpa using hi, by simp [chunks, length_nextChunk]⟩

/-- Settles O51: the chunks are the image taken 1024 bytes at a time, so each one's length is 1024 or what is left. -/
theorem chunksCoverTheImage : Obligations.ChunksCoverTheImage := by
  intro image
  obtain ⟨hcover, hneeded⟩ := chunkCount_bounds image.length
  rw [chunkSize] at hcover hneeded
  refine ⟨flatten_chunks image, ?_, ?_, ?_, fun i c hc hi => ?_, fun c hc => ?_⟩
  · rw [length_chunks]
    omega
  · rw [length_chunks]
    exact hcover
  · rw [← List.length_flatten, flatten_chunks]
  · obtain ⟨-, hlen⟩ := length_of_getElem?_chunks image i c hc
    rw [length_chunks] at hi
    rw [hlen, chunkSize]
    omega
  · rw [List.getLast?_eq_getElem?, length_chunks] at hc
    obtain ⟨hi, hlen⟩ := length_of_getElem?_chunks image _ c hc
    rw [hlen, chunkSize]
    split <;> omega

end Sys2Proof.Machine
end

section
/-! PROOFS on the orchestrator's operations (44_protocol_context.md sections 3 and 4): what the block does for it, the
transition out of each stage, and when a run is over. -/

namespace Sys2Proof.Machine

/-! ### The block as the orchestrator drives it (R157) -/

/-- R81: a sequence performs its operations up to some point, in order. -/
theorem performAll_eq_afterOps_take (ops : List Op) (s : State) :
    ∃ n, performAll ops s = .next (afterOps (ops.take n) s) := by
  induction ops generalizing s with
  | nil => exact ⟨0, rfl⟩
  | cons o ops ih =>
    rw [performAll_cons]
    by_cases hr : (afterOp o s).lastRefused = true
    · exact ⟨1, by rw [if_pos hr]; rfl⟩
    · obtain ⟨n, hn⟩ := ih (afterOp o s)
      exact ⟨n + 1, by rw [if_neg hr, hn]; rfl⟩

theorem blockAfter_eq_of_performAll {ops : List Op} {s t : State} (h : performAll ops s = .next t) :
    blockAfter ops s = t := by
  simp only [blockAfter, h]

/-- R37, R51: the engine's operations leave the Encoder and the configuration alone and emit nothing. -/
theorem blockAfter_of_engine_ops (ops : List Op) (s : State) (h : ∀ o ∈ ops, o.unit = some .engine) :
    (blockAfter ops s).encCnt = s.encCnt ∧ (blockAfter ops s).config = s.config ∧
      emittedBytes ((blockAfter ops s).transcript.drop s.transcript.length) = [] := by
  obtain ⟨n, hn⟩ := performAll_eq_afterOps_take ops s
  have hops : ∀ o ∈ ops.take n, o.unit = some .engine := fun o ho => h o (List.mem_of_mem_take ho)
  obtain ⟨-, hcnt⟩ := afterOps_leaves_other_units (ops.take n) s .engine .encoder hops (by decide)
  rw [blockAfter_eq_of_performAll hn]
  refine ⟨hcnt, afterOps_config _ s, ?_⟩
  rw [afterOps_transcript, List.drop_left, emittedBytes, List.filterMap_eq_nil_iff]
  rintro ⟨o, r⟩ hmem
  have hunit := hops o (List.of_mem_zip hmem).1
  cases o with
  | encPop => cases hunit
  | _ => rfl

theorem unit_of_mem_checksumBytes (bs : List Byte) : ∀ o ∈ checksumBytes bs, o.unit = some .engine := by
  intro o ho
  simp only [checksumBytes, List.mem_append, List.mem_cons, List.mem_map, List.not_mem_nil, or_false] at ho
  obtain (rfl | ⟨b, -, rfl⟩) | rfl | rfl := ho <;> rfl

/-- R104: `checksum_bytes` ends with the checksum of an image of whole words. -/
theorem lastWord_checksumBytes_of_words (bs : List Byte) (s : State) (h : bs.length % 4 = 0) :
    lastWord (blockAfter (checksumBytes bs) s).transcript =
      some (computeChecksum (wordsOfBytes s.config.wordOrder bs).1 INIT POLY) := by
  obtain ⟨t, ht, hwords, -⟩ := checksumBytesFollowsTailPolicy s bs
  have htail : (wordsOfBytes s.config.wordOrder bs).2 = [] := by
    rw [tail_wordsOfBytes]
    exact List.drop_eq_nil_of_le (by omega)
  rw [blockAfter_eq_of_performAll ht, lastWord, hwords htail]

/-- R104: `checksum_bytes` ends with a checksum unless the tail policy refuses the image. -/
theorem exists_lastWord_checksumBytes (bs : List Byte) (s : State)
    (h : bs.length % 4 = 0 ∨ s.config.tailPolicy ≠ .refuse) :
    ∃ w, lastWord (blockAfter (checksumBytes bs) s).transcript = some w := by
  by_cases h4 : bs.length % 4 = 0
  · exact ⟨_, lastWord_checksumBytes_of_words bs s h4⟩
  obtain ⟨t, ht, hwords, htail⟩ := checksumBytesFollowsTailPolicy s bs
  rw [blockAfter_eq_of_performAll ht]
  by_cases hnil : (wordsOfBytes s.config.wordOrder bs).2 = []
  · exact ⟨_, by rw [lastWord, hwords hnil]⟩
  · have hlast := htail hnil
    cases hp : s.config.tailPolicy with
    | refuse => exact absurd hp (h.resolve_left h4)
    | drop => exact ⟨_, by rw [lastWord, hlast, hp]⟩
    | zeroPad => exact ⟨_, by rw [lastWord, hlast, hp]⟩

/-- R135: a command issued to an idle Encoder is written whole and leaves it idle. -/
theorem Orchestrator.issue_send_of_idle (o : Orchestrator) (op : Byte) (arg : Word) (hc : isCommand op = true)
    (h : o.block.encCnt = 0#3) :
    (o.issue (send op arg)).written = o.written ++ frameBytes op arg ∧ (o.issue (send op arg)).block.encCnt = 0#3 ∧
      (o.issue (send op arg)).block.config = o.block.config := by
  have hsent := performAll_send_of_idle op arg o.block hc h
  refine ⟨?_, ?_, ?_⟩
  · simp only [Orchestrator.issue, blockAfter_eq_of_performAll hsent, List.drop_left]
    exact congrArg (o.written ++ ·) (emittedBytes_encPops (frameBytes op arg))
  · rw [Orchestrator.issue_block, blockAfter_eq_of_performAll hsent]
  · rw [Orchestrator.issue_block, blockAfter_eq_of_performAll hsent]

/-- R157, stage verifying: the checksum's operations write nothing. -/
theorem Orchestrator.issue_checksumBytes (o : Orchestrator) (bs : List Byte) :
    (o.issue (checksumBytes bs)).written = o.written ∧ (o.issue (checksumBytes bs)).block.encCnt = o.block.encCnt ∧
      (o.issue (checksumBytes bs)).block.config = o.block.config := by
  obtain ⟨hcnt, hconfig, hemitted⟩ := blockAfter_of_engine_ops _ o.block (unit_of_mem_checksumBytes bs)
  exact ⟨by rw [Orchestrator.issue]; simp only [hemitted, List.append_nil], hcnt, hconfig⟩

/-! ### The transition out of each stage (R156, R157) -/

section
variable (o : Orchestrator)

theorem Orchestrator.advance_init (h : o.stage = .init) :
    o.advance = (o.issue (send 0x01#8 0#32)).await readyPattern 5000
      (fun p => { p with stage := .ready, transport := p.transport.pause p.params.settleDelayMs })
      .handshakeFailure := by
  simp only [Orchestrator.advance, h, defaultTimeoutMs]

theorem Orchestrator.advance_ready (h : o.stage = .ready) :
    o.advance = (o.issue (send 0x02#8 (imageLength o.image))).await successToken 5000
      (fun p => { p with stage := .sizeSet }) (.stageTimeout .ready) := by
  simp only [Orchestrator.advance, h, defaultTimeoutMs]

theorem Orchestrator.advance_sizeSet (h : o.stage = .sizeSet) :
    o.advance = (o.issue (send 0x03#8 0#32)).await successToken 15000
      (fun p => { p with stage := .updating, session := some ⟨p.image.length, 0, 0⟩ }) (.stageTimeout .sizeSet) := by
  simp only [Orchestrator.advance, h]

theorem Orchestrator.advance_updating (h : o.stage = .updating) : o.advance = { o with stage := .streaming } := by
  simp only [Orchestrator.advance, h]

theorem Orchestrator.advance_streaming_of_lt (h : o.stage = .streaming) (t : TransferSession) (ht : o.session = some t)
    (hlt : t.bytesSent < t.totalSize) :
    o.advance = (o.writeRaw (nextChunk o.image t.bytesSent)).await successToken 10000
      (fun p => p.chunkDone (t.advance (nextChunk o.image t.bytesSent).length)) (.stageTimeout .streaming) := by
  simp only [Orchestrator.advance, h, ht, Orchestrator.stream, if_pos hlt]

theorem Orchestrator.advance_streaming_of_le (h : o.stage = .streaming) (t : TransferSession) (ht : o.session = some t)
    (hle : t.totalSize ≤ t.bytesSent) :
    o.advance = o.await successToken 2000 (fun p => { p with stage := .verifying }) (.stageTimeout .streaming) := by
  simp only [Orchestrator.advance, h, ht, Orchestrator.stream, if_neg (Nat.not_lt_of_le hle)]

theorem Orchestrator.advance_verifying (h : o.stage = .verifying) (w : Word)
    (hw : lastWord (blockAfter (checksumBytes o.image) o.block).transcript = some w) :
    o.advance = ((o.issue (checksumBytes o.image)).issue (send 0x04#8 w)).await successToken 5000
      (fun q => { q with stage := .done, session := none }) .checksumMismatch := by
  simp only [Orchestrator.advance, h, Orchestrator.verify, Orchestrator.issue_block, hw, defaultTimeoutMs]

end

/-! ### A run that is over (R155, R161, R162) -/

/-- A run in `Done` or `Failed`, or with an error. -/
def Orchestrator.isOver (o : Orchestrator) : Prop := o.stage = .done ∨ o.stage = .failed ∨ o.error ≠ none

theorem Orchestrator.act_of_isOver (o : Orchestrator) (r : Request) (h : o.isOver) : o.act r = o := by
  have hover : (o.error.isSome || o.stage == .done || o.stage == .failed) = true := by
    rcases h with h | h | h
    · simp [h]
    · simp [h]
    · simp [Option.isSome_iff_ne_none.2 h]
  unfold Orchestrator.act
  rw [if_pos hover]

theorem Orchestrator.run_of_isOver (o : Orchestrator) (rs : List Request) (h : o.isOver) : o.run rs = o := by
  induction rs with
  | nil => rfl
  | cons r rs ih => rw [Orchestrator.run_cons, o.act_of_isOver r h, ih]

/-! ### A wait that times out (R155, R158, R161, R162) -/

theorem Orchestrator.await_fails (o : Orchestrator) (pattern : Line) (timeoutMs : Nat) (f : Orchestrator → Orchestrator)
    (e : EnvError) (h : (o.transport.await o.params pattern timeoutMs).outcome = .timedOut) :
    (o.await pattern timeoutMs f e).stage = .failed ∧ (o.await pattern timeoutMs f e).error = some e ∧
      (o.await pattern timeoutMs f e).exitCode = 1 ∧ (o.await pattern timeoutMs f e).session = none := by
  rw [o.await_of_timedOut pattern timeoutMs f e h]
  exact ⟨rfl, rfl, rfl, rfl⟩

/-- Settles O54: the transition out of each stage ends with that stage's wait, on the transport as heard. -/
theorem unansweredStageFailsTheRun : Obligations.UnansweredStageFailsTheRun := by
  refine ⟨fun o input pattern timeoutMs e herr hstage htimedOut => ?_, fun o r h => o.act_of_isOver r h⟩
  have hwaits : o.stage ≠ .done ∧ o.stage ≠ .failed ∧
      ∃ (q : Orchestrator) (f : Orchestrator → Orchestrator), (o.hear input).advance = q.await pattern timeoutMs f e ∧
        q.transport = o.transport.hear input ∧ q.params = o.params := by
    rcases hstage with ⟨hs, rfl, rfl, rfl⟩ | ⟨hs, rfl, rfl, rfl⟩ | ⟨hs, rfl, rfl, rfl⟩ |
        ⟨hs, ⟨t, ht, hlt⟩, rfl, rfl, rfl⟩ | ⟨hs, ⟨t, ht, hle⟩, rfl, rfl, rfl⟩ | ⟨hs, hsum, rfl, rfl, rfl⟩
    · exact ⟨by simp [hs], by simp [hs], _, _, (o.hear input).advance_init hs, rfl, rfl⟩
    · exact ⟨by simp [hs], by simp [hs], _, _, (o.hear input).advance_ready hs, rfl, rfl⟩
    · exact ⟨by simp [hs], by simp [hs], _, _, (o.hear input).advance_sizeSet hs, rfl, rfl⟩
    · exact ⟨by simp [hs], by simp [hs], _, _, (o.hear input).advance_streaming_of_lt hs t ht hlt, rfl, rfl⟩
    · exact ⟨by simp [hs], by simp [hs], _, _, (o.hear input).advance_streaming_of_le hs t ht hle, rfl, rfl⟩
    · obtain ⟨w, hw⟩ := exists_lastWord_checksumBytes o.image o.block hsum
      exact ⟨by simp [hs], by simp [hs], _, _, (o.hear input).advance_verifying hs w hw, rfl, rfl⟩
  obtain ⟨hd, hf, q, f, hadvance, htransport, hparams⟩ := hwaits
  rw [o.act_proceed input herr hd hf, hadvance]
  exact q.await_fails pattern timeoutMs f e (by rw [htransport, hparams, htimedOut])

/-! ### The echo probe (R156, R162) -/

section
variable (o : Orchestrator)

/-- One attempt: the outcome and the transport of its wait, and no other stage, parameters or error. -/
theorem Orchestrator.probeOnce_spec :
    o.probeOnce.2 = (o.transport.await o.params successToken 5000).outcome ∧
      o.probeOnce.1.transport = (o.transport.await o.params successToken 5000).after ∧
      o.probeOnce.1.params = o.params ∧ o.probeOnce.1.stage = o.stage ∧ o.probeOnce.1.error = o.error :=
  ⟨rfl, rfl, rfl, rfl, rfl⟩

theorem Orchestrator.probeOnce_writes (h : o.block.encCnt = 0#3) :
    o.probeOnce.1.written = o.written ++ frameBytes 0x01#8 0#32 ∧ o.probeOnce.1.block.encCnt = 0#3 := by
  obtain ⟨hwritten, hidle, -⟩ := o.issue_send_of_idle 0x01#8 0#32 rfl h
  exact ⟨hwritten, hidle⟩

/-- The orchestrator after an unanswered first attempt and the second one. -/
def Orchestrator.probeTwice (second : List Arrival) : Orchestrator × ResponseMatch :=
  (o.probeOnce.1.hear second).probeOnce

/-- The second attempt waits on the transport that the first one left. -/
theorem Orchestrator.probeTwice_spec (second : List Arrival) :
    (o.probeTwice second).2 = ((o.probeOnce.1.transport.hear second).await o.params successToken 5000).outcome ∧
      (o.probeTwice second).1.transport =
        ((o.probeOnce.1.transport.hear second).await o.params successToken 5000).after ∧
      (o.probeTwice second).1.stage = o.stage ∧ (o.probeTwice second).1.error = o.error := by
  obtain ⟨-, -, hparams, hstage, herror⟩ := o.probeOnce_spec
  obtain ⟨houtcome, htransport, -, hstage', herror'⟩ := (o.probeOnce.1.hear second).probeOnce_spec
  rw [Orchestrator.hear_transport, Orchestrator.hear_params, hparams] at houtcome htransport
  exact ⟨houtcome, htransport, hstage'.trans hstage, herror'.trans herror⟩

theorem Orchestrator.probeTwice_writes (second : List Arrival) (h : o.block.encCnt = 0#3) :
    (o.probeTwice second).1.written = o.written ++ frameBytes 0x01#8 0#32 ++ frameBytes 0x01#8 0#32 := by
  obtain ⟨hfirst, hidle⟩ := o.probeOnce_writes h
  obtain ⟨hsecond, -⟩ := (o.probeOnce.1.hear second).probeOnce_writes hidle
  rw [Orchestrator.probeTwice, hsecond, Orchestrator.hear_written, hfirst]

theorem Orchestrator.probe_of_first_matched (second : List Arrival) (h : o.probeOnce.2 = .matched) :
    o.probe second = o.probeOnce.1 := by
  simp only [Orchestrator.probe, h]

theorem Orchestrator.probe_of_second_matched (second : List Arrival) (h : o.probeOnce.2 = .timedOut)
    (h' : (o.probeTwice second).2 = .matched) : o.probe second = (o.probeTwice second).1 := by
  rw [Orchestrator.probeTwice] at h' ⊢
  simp only [Orchestrator.probe, h, h']

theorem Orchestrator.probe_of_both_timedOut (second : List Arrival) (h : o.probeOnce.2 = .timedOut)
    (h' : (o.probeTwice second).2 = .timedOut) :
    o.probe second = { (o.probeTwice second).1 with error := some .probeFailure } := by
  rw [Orchestrator.probeTwice] at h' ⊢
  simp only [Orchestrator.probe, h, h']

theorem Orchestrator.act_probe_of_ready (first second : List Arrival) (he : o.error = none) (hs : o.stage = .ready) :
    o.act (.probe first second) = (o.hear first).probe second := by
  simp [Orchestrator.act, he, hs]

theorem Orchestrator.act_probe_of_not_ready (first second : List Arrival) (hs : o.stage ≠ .ready) :
    o.act (.probe first second) = o := by
  simp [Orchestrator.act, hs]

theorem Orchestrator.exitCode_of_stage_ne_done (h : o.stage ≠ .done) : o.exitCode = 1 := by
  unfold Orchestrator.exitCode
  split
  · exact absurd ‹_› h
  · rfl

end

/-- Settles O57: one attempt if it is answered, else a second one, and an error if that is not answered either. -/
theorem failedProbeAbortsTheRun : Obligations.FailedProbeAbortsTheRun := by
  intro o first second he a b p
  refine ⟨fun hs => o.act_probe_of_not_ready first second hs, fun hs => ?_⟩
  have hp : p = (o.hear first).probe second := o.act_probe_of_ready first second he hs
  have hwrites := (o.hear first).probeOnce_writes
  have hwrites' := (o.hear first).probeTwice_writes second
  obtain ⟨houtcome, htransport, -, hstage, herror⟩ := (o.hear first).probeOnce_spec
  change _ = a.outcome at houtcome
  change _ = a.after at htransport
  obtain ⟨houtcome', htransport', hstage', herror'⟩ := (o.hear first).probeTwice_spec second
  rw [htransport] at houtcome' htransport'
  change _ = b.outcome at houtcome'
  change _ = b.after at htransport'
  clear_value a b p
  generalize ha : a.outcome = outcome
  generalize hb : b.outcome = outcome'
  cases outcome with
  | matched =>
    rw [(o.hear first).probe_of_first_matched second (houtcome.trans ha)] at hp
    rw [hp]
    exact ⟨hstage.trans hs, fun _ => ⟨herror.trans he, htransport, fun hidle => (hwrites hidle).1⟩, nofun⟩
  | timedOut =>
    cases outcome' with
    | matched =>
      rw [(o.hear first).probe_of_second_matched second (houtcome.trans ha) (houtcome'.trans hb)] at hp
      rw [hp]
      exact ⟨hstage'.trans hs, nofun, fun _ => ⟨htransport', hwrites', fun _ => herror'.trans he, nofun⟩⟩
    | timedOut =>
      rw [(o.hear first).probe_of_both_timedOut second (houtcome.trans ha) (houtcome'.trans hb)] at hp
      have hready : p.stage = .ready := by rw [hp]; exact hstage'.trans hs
      have hfailed : p.error = some .probeFailure := by rw [hp]
      have hafter : p.transport = b.after := by rw [hp]; exact htransport'
      refine ⟨hready, nofun, fun _ => ⟨hafter, by rw [hp]; exact hwrites', nofun, fun _ => ⟨hfailed, fun rs => ?_⟩⟩⟩
      rw [p.run_of_isOver rs (.inr (.inr (by simp [hfailed])))]
      exact ⟨rfl, p.exitCode_of_stage_ne_done (by simp [hready])⟩

end Sys2Proof.Machine
end

section
/-! PROOFS on a whole update run (44_protocol_context.md sections 3 and 4): the points that a run passes, what has been
written at each, and that each transition leads from one to the next or fails. -/

namespace Sys2Proof.Machine

/-! ### An answer that arrives at once (R152) -/

theorem takeLine_append_newline (text rest : List Char) (h : '\n' ∉ text) :
    takeLine (text ++ '\n' :: rest) = some (text ++ ['\n'], rest) := by
  induction text with
  | nil => simp [takeLine]
  | cons c text ih =>
    obtain ⟨hc, htext⟩ := List.ne_and_not_mem_of_not_mem_cons h
    simp [takeLine, hc.symm, ih htext]

/-- The device's line with the text `l`, at time 0. -/
def answerLine (l : Line) : List Arrival := (l ++ ['\n']).map fun c => ⟨0, c⟩

/-- R151: a line that has arrived is received at once. -/
theorem readUntil_answerLine (deadlineMs nowMs : Nat) (unread : List Char) (l : Line) (h : '\n' ∉ unread ++ l) :
    readUntil deadlineMs nowMs unread (answerLine l) = ⟨.line (unread ++ l ++ ['\n']), ⟨nowMs, [], []⟩⟩ := by
  induction l generalizing unread with
  | nil =>
    have hnone : takeLine unread = none := (takeLine_none_iff unread).2 (by simpa using h)
    have hline := takeLine_append_newline unread [] (by simpa using h)
    simp [answerLine, readUntil, hnone, hline]
  | cons c l ih =>
    have hnone : takeLine unread = none := (takeLine_none_iff unread).2 fun hmem => h (List.mem_append_left _ hmem)
    have hrest := ih (unread ++ [c]) (by simpa using h)
    simpa [answerLine, readUntil, hnone] using hrest

/-- R153: a wait for a text that the device sends at once, nothing else being there, matches and leaves nothing. -/
theorem Transport.await_answerLine (t : Transport) (p : EnvParams) (pattern : Line) (timeoutMs : Nat)
    (ht : t.chars = []) (h : '\n' ∉ pattern) :
    ((t.hear (answerLine pattern)).await p pattern timeoutMs).outcome = .matched ∧
      ((t.hear (answerLine pattern)).await p pattern timeoutMs).after.chars = [] := by
  obtain ⟨nowMs, unread, incoming⟩ := t
  obtain ⟨rfl, rfl⟩ : unread = [] ∧ incoming = [] := by simpa [Transport.chars] using ht
  have hmatch : containsPattern pattern (pattern ++ ['\n']) = true :=
    (containsPattern_iff_infix _ _).2 (List.prefix_append _ _).isInfix
  have hread := readUntil_answerLine (nowMs + max 1 p.readTimeoutMs) nowMs [] pattern h
  have hwait : (Transport.hear ⟨nowMs, [], []⟩ (answerLine pattern)).await p pattern timeoutMs =
      ⟨.matched, [pattern ++ ['\n']], ⟨nowMs, [], []⟩⟩ := by
    obtain ⟨n, hn⟩ : ∃ n, timeoutMs + 1 + 0 + (answerLine pattern).length = n + 1 :=
      ⟨timeoutMs + (answerLine pattern).length, by omega⟩
    simp only [Transport.await, Transport.hear, List.nil_append, List.length_nil, hn, Transport.nextReads,
      Transport.readLine, hread]
    exact awaitReads_cons_match _ _ _ _ _ _ (Nat.le_add_right _ _) hmatch
  rw [hwait]
  exact ⟨rfl, rfl⟩

/-! ### The points of a run (R155, R156) -/

/-- Where a run stands that has not failed. -/
inductive UpdatePoint where
  | start
  | handshaken
  | sized
  | acknowledged
  /-- `sent` chunks acknowledged -/
  | streaming (sent : Nat)
  | streamed
  | verified

def UpdatePoint.stage : UpdatePoint → Stage
  | start => .init
  | handshaken => .ready
  | sized => .sizeSet
  | acknowledged => .updating
  | streaming _ => .streaming
  | streamed => .verifying
  | verified => .done

/-- The bytes of the image sent with the first `sent` chunks. -/
def sentBytes (image : List Byte) (sent : Nat) : Nat := min (chunkSize * sent) image.length

def UpdatePoint.session (image : List Byte) : UpdatePoint → Option TransferSession
  | acknowledged => some ⟨image.length, 0, 0⟩
  | streaming sent => some ⟨image.length, sentBytes image sent, sent⟩
  | streamed => some ⟨image.length, image.length, chunkCount image.length⟩
  | _ => none

/-- The frames written before the image (R157). -/
def updateHeader (image : List Byte) : List Byte :=
  frameBytes 0x01#8 0#32 ++ frameBytes 0x02#8 (BitVec.ofNat 32 image.length) ++ frameBytes 0x03#8 0#32

/-- The checksum of an image of whole words (R92, R104). -/
def imageChecksum (order : WordOrder) (image : List Byte) : Word :=
  computeChecksum (wordsOfBytes order image).1 INIT POLY

def UpdatePoint.written (order : WordOrder) (image : List Byte) : UpdatePoint → List Byte
  | start => []
  | handshaken => frameBytes 0x01#8 0#32
  | sized => frameBytes 0x01#8 0#32 ++ frameBytes 0x02#8 (BitVec.ofNat 32 image.length)
  | acknowledged => updateHeader image
  | streaming sent => updateHeader image ++ image.take (sentBytes image sent)
  | streamed => updateHeader image ++ image
  | verified => updateHeader image ++ image ++ frameBytes 0x04#8 (imageChecksum order image)

/-- The chunks reported (R156). -/
def UpdatePoint.reports (image : List Byte) : UpdatePoint → Nat
  | streaming sent => sent
  | streamed => chunkCount image.length
  | verified => chunkCount image.length
  | _ => 0

/-- The point after a transition that does not fail. -/
def UpdatePoint.next (image : List Byte) : UpdatePoint → UpdatePoint
  | start => handshaken
  | handshaken => sized
  | sized => acknowledged
  | acknowledged => streaming 0
  | streaming sent => if sent < chunkCount image.length then streaming (sent + 1) else streamed
  | streamed => verified
  | verified => verified

/-- The run of an image stands at a point. -/
structure Orchestrator.IsAt (o : Orchestrator) (order : WordOrder) (image : List Byte) (p : UpdatePoint) : Prop where
  stage_eq : o.stage = p.stage
  image_eq : o.image = image
  session_eq : o.session = p.session image
  written_eq : o.written = p.written order image
  reports_eq : o.progress.length = p.reports image
  error_eq : o.error = none
  idle : o.block.encCnt = 0#3
  order_eq : o.block.config.wordOrder = order
  bound : ∀ sent, p = .streaming sent → sent ≤ chunkCount image.length

section
variable {order : WordOrder} {image : List Byte}

/-! ### Each transition (R156, R157) -/

/-- From `p` a transition waits for a text: it fails if the wait does, and else leads to `q` with what the wait left on
the transport. -/
def Awaits (order : WordOrder) (image : List Byte) (p : UpdatePoint) (pattern : Line) (q : UpdatePoint) : Prop :=
  ∀ (o : Orchestrator) (input : List Arrival), o.IsAt order image p → ∃ timeoutMs,
    let r := (o.transport.hear input).await o.params pattern timeoutMs
    (r.outcome = .timedOut → (o.act (.proceed input)).stage = .failed) ∧
    (r.outcome = .matched →
      (o.act (.proceed input)).IsAt order image q ∧ (o.act (.proceed input)).transport.chars = r.after.chars)

/-- A transition that issues something, which leaves the transport alone, and then waits. -/
theorem awaits_of_advance {p q : UpdatePoint} {pattern : Line} (timeoutMs : Nat)
    (issue answered : Orchestrator → Orchestrator) (e : EnvError) (hp : p.stage ≠ .done ∧ p.stage ≠ .failed)
    (hadvance : ∀ o : Orchestrator, o.IsAt order image p → o.advance = (issue o).await pattern timeoutMs answered e)
    (hissue : ∀ o, (issue o).transport = o.transport ∧ (issue o).params = o.params)
    (hanswered : ∀ (o : Orchestrator) (r : WaitResult), o.IsAt order image p →
      (answered ((issue o).afterWait r)).IsAt order image q)
    (hchars : ∀ o, (answered o).transport.chars = o.transport.chars) : Awaits order image p pattern q := by
  intro o input ho
  have hheard : (o.hear input).IsAt order image p := { ho with }
  obtain ⟨htransport, hparams⟩ := hissue (o.hear input)
  rw [Orchestrator.hear_transport] at htransport
  rw [Orchestrator.hear_params] at hparams
  have hact : o.act (.proceed input) = (issue (o.hear input)).await pattern timeoutMs answered e := by
    rw [o.act_proceed input ho.error_eq (ho.stage_eq ▸ hp.1) (ho.stage_eq ▸ hp.2), hadvance _ hheard]
  refine ⟨timeoutMs, fun htimedOut => ?_, fun hmatched => ?_⟩
  · rw [← htransport, ← hparams] at htimedOut
    rw [hact]
    exact (Orchestrator.await_fails _ _ _ _ _ htimedOut).1
  · rw [← htransport, ← hparams] at hmatched ⊢
    rw [hact, Orchestrator.await_of_matched _ _ _ _ _ hmatched]
    exact ⟨hanswered _ _ hheard, hchars _⟩

/-- R157: what is written with a command, the Encoder being idle. -/
theorem Orchestrator.IsAt.issue_send {o : Orchestrator} {p : UpdatePoint} (ho : o.IsAt order image p) (op : Byte)
    (arg : Word) (hc : isCommand op = true) :
    (o.issue (send op arg)).written = p.written order image ++ frameBytes op arg ∧
      (o.issue (send op arg)).block.encCnt = 0#3 ∧ (o.issue (send op arg)).block.config.wordOrder = order := by
  obtain ⟨hwritten, hidle, hconfig⟩ := o.issue_send_of_idle op arg hc ho.idle
  exact ⟨by rw [hwritten, ho.written_eq], hidle, by rw [hconfig, ho.order_eq]⟩

theorem awaits_start : Awaits order image .start readyPattern .handshaken :=
  awaits_of_advance 5000 _ _ _ (by decide) (fun o ho => o.advance_init ho.stage_eq) (fun _ => ⟨rfl, rfl⟩)
    (fun o r ho => by
      obtain ⟨hwritten, hidle, horder⟩ := ho.issue_send 0x01#8 0#32 rfl
      exact { ho with stage_eq := rfl, written_eq := hwritten, idle := hidle, order_eq := horder, bound := nofun })
    (fun _ => rfl)

theorem awaits_handshaken : Awaits order image .handshaken successToken .sized :=
  awaits_of_advance 5000 _ _ _ (by decide) (fun o ho => o.advance_ready ho.stage_eq) (fun _ => ⟨rfl, rfl⟩)
    (fun o r ho => by
      obtain ⟨hwritten, hidle, horder⟩ := ho.issue_send 0x02#8 (imageLength o.image) rfl
      exact
        { ho with
          stage_eq := rfl
          written_eq := hwritten.trans (by rw [ho.image_eq]; rfl)
          idle := hidle
          order_eq := horder
          bound := nofun })
    (fun _ => rfl)

theorem awaits_sized : Awaits order image .sized successToken .acknowledged :=
  awaits_of_advance 15000 _ _ _ (by decide) (fun o ho => o.advance_sizeSet ho.stage_eq) (fun _ => ⟨rfl, rfl⟩)
    (fun o r ho => by
      obtain ⟨hwritten, hidle, horder⟩ := ho.issue_send 0x03#8 0#32 rfl
      have hsession : some (TransferSession.mk o.image.length 0 0) = UpdatePoint.session image .acknowledged := by
        rw [ho.image_eq]
        rfl
      exact
        { ho with
          stage_eq := rfl
          session_eq := hsession
          written_eq := hwritten
          idle := hidle
          order_eq := horder
          bound := nofun })
    (fun _ => rfl)

/-- "Updating to Streaming" waits for nothing (R156). -/
theorem act_acknowledged (o : Orchestrator) (input : List Arrival) (ho : o.IsAt order image .acknowledged) :
    (o.act (.proceed input)).IsAt order image (.streaming 0) ∧
      (o.act (.proceed input)).transport = o.transport.hear input := by
  have hstage := ho.stage_eq
  rw [o.act_proceed input ho.error_eq (hstage ▸ nofun) (hstage ▸ nofun), (o.hear input).advance_updating hstage]
  refine ⟨?_, rfl⟩
  exact
    { ho with
      stage_eq := rfl
      session_eq := ho.session_eq.trans (by simp [UpdatePoint.session, sentBytes])
      written_eq := ho.written_eq.trans (by simp [UpdatePoint.written, sentBytes])
      bound := by rintro _ ⟨⟩; exact Nat.zero_le _ }

theorem sentBytes_of_lt (sent : Nat) (h : sent < chunkCount image.length) :
    sentBytes image sent = chunkSize * sent ∧ chunkSize * sent < image.length := by
  obtain ⟨-, hneeded⟩ := chunkCount_bounds image.length
  rw [sentBytes, chunkSize] at *
  omega

theorem sentBytes_chunkCount : sentBytes image (chunkCount image.length) = image.length :=
  min_eq_right (chunkCount_bounds image.length).1

/-- The next chunk after `sent` of them brings the image sent to `sent + 1` chunks. -/
theorem take_sentBytes_append_nextChunk (sent : Nat) (h : sent < chunkCount image.length) :
    image.take (sentBytes image sent) ++ nextChunk image (sentBytes image sent) =
        image.take (sentBytes image (sent + 1)) ∧
      sentBytes image sent + (nextChunk image (sentBytes image sent)).length = sentBytes image (sent + 1) := by
  obtain ⟨hsent, hlt⟩ := sentBytes_of_lt sent h
  rw [length_nextChunk, hsent, sentBytes, Nat.mul_succ]
  refine ⟨?_, by omega⟩
  rw [← List.take_eq_take_min, List.take_add]
  rfl

theorem awaits_chunk (sent : Nat) (h : sent < chunkCount image.length) :
    Awaits order image (.streaming sent) successToken (.streaming (sent + 1)) := by
  obtain ⟨htake, hlength⟩ := take_sentBytes_append_nextChunk sent h
  have hlt : sentBytes image sent < image.length := by
    obtain ⟨hsent, hlt⟩ := sentBytes_of_lt sent h
    rwa [hsent]
  refine awaits_of_advance 10000 (fun o => o.writeRaw (nextChunk image (sentBytes image sent)))
    (fun p => p.chunkDone ⟨image.length, sentBytes image (sent + 1), sent + 1⟩) (.stageTimeout .streaming)
    (by simp [UpdatePoint.stage]) (fun o ho => ?_) (fun _ => ⟨rfl, rfl⟩) (fun o r ho => ?_) (fun _ => rfl)
  · rw [o.advance_streaming_of_lt ho.stage_eq _ ho.session_eq hlt, ho.image_eq, TransferSession.advance, hlength]
  · have hwritten : o.written ++ nextChunk image (sentBytes image sent) =
        UpdatePoint.written order image (.streaming (sent + 1)) := by
      rw [ho.written_eq, UpdatePoint.written, List.append_assoc, htake]
      rfl
    exact
      { ho with
        session_eq := rfl
        written_eq := hwritten
        reports_eq := List.length_append.trans (congrArg (· + 1) ho.reports_eq)
        bound := by rintro _ ⟨⟩; exact h }

theorem awaits_streamed : Awaits order image (.streaming (chunkCount image.length)) successToken .streamed :=
  awaits_of_advance 2000 id _ _ (by simp [UpdatePoint.stage])
    (fun o ho => o.advance_streaming_of_le ho.stage_eq _ ho.session_eq sentBytes_chunkCount.ge) (fun _ => ⟨rfl, rfl⟩)
    (fun o r ho =>
      { ho with
        stage_eq := rfl
        session_eq := ho.session_eq.trans (by simp [UpdatePoint.session, sentBytes_chunkCount])
        written_eq := ho.written_eq.trans (by simp [UpdatePoint.written, sentBytes_chunkCount])
        bound := nofun })
    (fun _ => rfl)

theorem awaits_verified (h4 : image.length % 4 = 0) : Awaits order image .streamed successToken .verified := by
  refine awaits_of_advance 5000
    (fun o => (o.issue (checksumBytes image)).issue (send 0x04#8 (imageChecksum order image)))
    (fun q => { q with stage := .done, session := none }) .checksumMismatch (by decide)
    (fun o ho => ?_) (fun _ => ⟨rfl, rfl⟩) (fun o r ho => ?_) (fun _ => rfl)
  · have hsum := lastWord_checksumBytes_of_words o.image o.block (by rw [ho.image_eq, h4])
    rw [o.advance_verifying ho.stage_eq _ hsum, ho.order_eq, ho.image_eq, imageChecksum]
  · obtain ⟨hsum, hcnt, hconfig⟩ := o.issue_checksumBytes image
    have hissued : (o.issue (checksumBytes image)).IsAt order image .streamed :=
      { ho with
        written_eq := hsum.trans ho.written_eq
        idle := hcnt.trans ho.idle
        order_eq := (congrArg Config.wordOrder hconfig).trans ho.order_eq }
    obtain ⟨hwritten, hidle, horder⟩ := hissued.issue_send 0x04#8 (imageChecksum order image) rfl
    exact
      { ho with
        stage_eq := rfl
        session_eq := rfl
        written_eq := hwritten
        idle := hidle
        order_eq := horder
        bound := nofun }

/-! ### A run, transition by transition (R155, R161) -/

/-- R155: a transition that does not fail leads to the next point. -/
theorem act_fails_or_isAt_next (h4 : image.length % 4 = 0) (p : UpdatePoint) (o : Orchestrator) (input : List Arrival)
    (ho : o.IsAt order image p) :
    (o.act (.proceed input)).stage = .failed ∨ (o.act (.proceed input)).IsAt order image (p.next image) := by
  have waits {pattern : Line} {q : UpdatePoint} (hq : Awaits order image p pattern q) :
      (o.act (.proceed input)).stage = .failed ∨ (o.act (.proceed input)).IsAt order image q := by
    obtain ⟨timeoutMs, htimedOut, hmatched⟩ := hq o input ho
    cases hr : ((o.transport.hear input).await o.params pattern timeoutMs).outcome with
    | timedOut => exact .inl (htimedOut hr)
    | matched => exact .inr (hmatched hr).1
  cases p with
  | start => exact waits awaits_start
  | handshaken => exact waits awaits_handshaken
  | sized => exact waits awaits_sized
  | acknowledged => exact .inr (act_acknowledged o input ho).1
  | streaming sent =>
    rw [UpdatePoint.next]
    split
    · exact waits (awaits_chunk sent ‹_›)
    · obtain rfl : sent = chunkCount image.length := le_antisymm (ho.bound sent rfl) (Nat.le_of_not_lt ‹_›)
      exact waits awaits_streamed
  | streamed => exact waits (awaits_verified h4)
  | verified =>
    rw [o.act_of_isOver _ (.inl ho.stage_eq)]
    exact .inr ho

theorem run_fails_or_isAt (h4 : image.length % 4 = 0) (inputs : List (List Arrival)) (p : UpdatePoint)
    (o : Orchestrator) (ho : o.IsAt order image p) :
    (o.run (inputs.map .proceed)).stage = .failed ∨
      (o.run (inputs.map .proceed)).IsAt order image ((UpdatePoint.next image)^[inputs.length] p) := by
  induction inputs generalizing p o with
  | nil => exact .inr ho
  | cons input inputs ih =>
    rw [List.map_cons, Orchestrator.run_cons]
    rcases act_fails_or_isAt_next h4 p o input ho with hfailed | hnext
    · rw [Orchestrator.run_of_isOver _ _ (.inr (.inl hfailed))]
      exact .inl hfailed
    · exact ih _ _ hnext

theorem next_iterate_streaming (sent more : Nat) (h : sent + more ≤ chunkCount image.length) :
    (UpdatePoint.next image)^[more] (.streaming sent) = .streaming (sent + more) := by
  induction more generalizing sent with
  | zero => rfl
  | succ more ih =>
    rw [Function.iterate_succ_apply, UpdatePoint.next, if_pos (by omega), ih _ (by omega), Nat.add_right_comm,
      Nat.add_assoc]

/-- R156: as many transitions as the update has lead from the start of a run to its end. -/
theorem next_iterate_start : (UpdatePoint.next image)^[chunkCount image.length + 6] .start = .verified := by
  have hstream := next_iterate_streaming (image := image) 0 (chunkCount image.length) (by omega)
  rw [Nat.zero_add] at hstream
  have hsplit : chunkCount image.length + 6 = 2 + (chunkCount image.length + 4) := by omega
  rw [hsplit, Function.iterate_add_apply, Function.iterate_add_apply]
  change (UpdatePoint.next image)^[2] ((UpdatePoint.next image)^[chunkCount image.length] (.streaming 0)) = _
  rw [hstream]
  simp [UpdatePoint.next]

/-! ### An answered run (R164) -/

/-- A run at a point with nothing unread and nothing on its way. -/
def Orchestrator.IsQuietAt (o : Orchestrator) (order : WordOrder) (image : List Byte) (p : UpdatePoint) : Prop :=
  o.IsAt order image p ∧ o.transport.chars = []

theorem Awaits.answered {p q : UpdatePoint} {pattern : Line} (hq : Awaits order image p pattern q) (h : '\n' ∉ pattern)
    (o : Orchestrator) (ho : o.IsQuietAt order image p) :
    (o.act (.proceed (answerLine pattern))).IsQuietAt order image q := by
  obtain ⟨hpoint, hquiet⟩ := ho
  obtain ⟨timeoutMs, -, hmatched⟩ := hq o (answerLine pattern) hpoint
  obtain ⟨hr, hafter⟩ := o.transport.await_answerLine o.params pattern timeoutMs hquiet h
  obtain ⟨hnext, hchars⟩ := hmatched hr
  exact ⟨hnext, hchars.trans hafter⟩

theorem run_answered_chunks (sent more : Nat) (h : sent + more ≤ chunkCount image.length) (o : Orchestrator)
    (ho : o.IsQuietAt order image (.streaming sent)) :
    (o.run ((List.replicate more (answerLine successToken)).map .proceed)).IsQuietAt order image
      (.streaming (sent + more)) := by
  induction more generalizing sent o with
  | zero => exact ho
  | succ more ih =>
    have hnext := ih (sent + 1) (by omega) _ ((awaits_chunk sent (by omega)).answered (by decide) o ho)
    rwa [Nat.add_right_comm, Nat.add_assoc] at hnext

/-- R164, scenario 1. -/
theorem run_answered (h4 : image.length % 4 = 0) (o : Orchestrator) (ho : o.IsQuietAt order image .start) :
    (o.run (([answerLine readyPattern, answerLine successToken, answerLine successToken, []] ++
      List.replicate (chunkCount image.length) (answerLine successToken) ++
      [answerLine successToken, answerLine successToken]).map .proceed)).IsQuietAt order image .verified := by
  have hshaken := awaits_start.answered (by decide) o ho
  have hsized := awaits_handshaken.answered (by decide) _ hshaken
  have hupdating := awaits_sized.answered (by decide) _ hsized
  obtain ⟨hpoint, htransport⟩ := act_acknowledged _ [] hupdating.1
  have hstreaming := run_answered_chunks 0 _ (Nat.zero_add _).le _
    ⟨hpoint, by rw [htransport]; simpa [Transport.hear, Transport.chars] using hupdating.2⟩
  rw [Nat.zero_add] at hstreaming
  have hstreamed := awaits_streamed.answered (by decide) _ hstreaming
  rw [List.map_append, List.map_append, Orchestrator.run_append, Orchestrator.run_append]
  exact (awaits_verified h4).answered (by decide) _ hstreamed

end

/-! ### The start of a run (R107, R208) -/

/-- R103: the block after `checksum_words`, which answers the checksum and leaves the Encoder and the configuration. -/
theorem blockAfter_checksumWords (ws : List Word) (s : State) :
    lastWord (blockAfter (checksumWords ws) s).transcript = some (computeChecksum ws INIT POLY) ∧
      (blockAfter (checksumWords ws) s).encCnt = s.encCnt ∧ (blockAfter (checksumWords ws) s).config = s.config := by
  rw [blockAfter_eq_of_performAll (performAll_checksumWords ws s)]
  exact ⟨by simp only [lastWord, List.getLast?_concat], rfl, rfl⟩

/-- R107: the block passes the self-test in every state, and the test leaves the Encoder and the configuration. -/
theorem selfTest_passes (s : State) :
    (selfTest s).2 = true ∧ (selfTest s).1.encCnt = s.encCnt ∧ (selfTest s).1.config = s.config := by
  obtain ⟨-, -, hfirst, hsecond, hthird, hfourth⟩ := checksumCarriesAcrossWords
  simp [selfTest, selfTestVectors, blockAfter_checksumWords, hfirst, hsecond, hthird, hfourth]

/-- R208: a run starts with nothing written and the input buffer discarded. -/
theorem start_isAt (params : EnvParams) (transport : Transport) (image : List Byte) (block : State)
    (hidle : block.encCnt = 0#3) :
    (Orchestrator.start params transport image block).IsAt block.config.wordOrder image .start ∧
      (Orchestrator.start params transport image block).transport = transport.discardInput := by
  obtain ⟨hpasses, hcnt, hconfig⟩ := selfTest_passes block
  unfold Orchestrator.start
  dsimp only
  rw [if_pos hpasses]
  exact ⟨⟨rfl, rfl, rfl, rfl, rfl, rfl, hcnt.trans hidle, congrArg Config.wordOrder hconfig, nofun⟩, rfl⟩

/-- Settles O53: every transition fails or leads to the next point, and an answered one does not fail. -/
theorem answeredRunWritesTheWholeUpdate : Obligations.AnsweredRunWritesTheWholeUpdate := by
  intro params transport image block h4 _ hidle
  obtain ⟨hstart, htransport⟩ := start_isAt params transport image block hidle
  refine ⟨?_, fun hincoming => ?_⟩
  · intro inputs hinputs o hnotFailed
    have hend := (run_fails_or_isAt h4 inputs .start _ hstart).resolve_left hnotFailed
    rw [hinputs, next_iterate_start] at hend
    have hdone : o.stage = .done := hend.stage_eq
    have hexit : o.exitCode = 0 := by rw [Orchestrator.exitCode, hdone]
    exact ⟨hdone, hexit, hend.error_eq, hend.session_eq, hend.reports_eq, hend.written_eq⟩
  · have hquiet : transport.discardInput.chars = [] := by simp [Transport.chars, Transport.discardInput, hincoming]
    exact (run_answered h4 _ ⟨hstart, htransport ▸ hquiet⟩).1.stage_eq

end Sys2Proof.Machine
end

section
/-! PROOFS on the refusals (60_exceptions.md): when each of the five reasons is an operation's answer, and what a
refused operation leaves. -/

namespace Sys2Proof.Machine

/-- The table of R181: under which condition each reason is the answer, `BadOpcode` before `EncoderBusy` (R183). -/
def refusalCondition (reason : RefusalReason) (o : Op) (s : State) : Prop :=
  match reason with
  | .wordWhileResidue => (∃ w, o = .crcWord w) ∧ s.pkCnt ≠ 0#2
  | .tailResidue => o = .crcFlush ∧ s.pkCnt ≠ 0#2 ∧ s.config.tailPolicy = .refuse
  | .badOpcode => ∃ op arg, o = .encLoad op arg ∧ (op = 0x00#8 ∨ 0x06#8 ≤ op)
  | .encoderBusy => ∃ op arg, o = .encLoad op arg ∧ ¬ (op = 0x00#8 ∨ 0x06#8 ≤ op) ∧ s.encCnt ≠ 0#3
  | .encoderIdle => o = .encPop ∧ s.encCnt = 0#3

theorem isCommand_eq_false_iff (op : Byte) : isCommand op = false ↔ op = 0x00#8 ∨ 0x06#8 ≤ op := by
  rw [Bool.eq_false_iff, ne_eq, isCommand_iff]
  bv_omega

/-- An operation is refused with a reason exactly under that reason's condition. -/
theorem opAnswer_eq_refused_iff (o : Op) (s : State) (reason : RefusalReason) :
    opAnswer o s = .refused reason ↔ refusalCondition reason o s := by
  cases o with
  | crcWord w =>
    by_cases hk : s.pkCnt = 0#2 <;> cases reason <;> simp [opAnswer, refusalCondition, hk]
  | crcFlush =>
    by_cases hk : s.pkCnt ≠ 0#2 ∧ s.config.tailPolicy = .refuse <;>
      cases reason <;> simp [opAnswer, refusalCondition, hk]
  | encLoad op arg =>
    by_cases hc : isCommand op = false
    · cases reason <;> simp [opAnswer, refusalCondition, ← isCommand_eq_false_iff, hc]
    · by_cases hidle : s.encCnt = 0#3 <;>
        cases reason <;> simp [opAnswer, refusalCondition, ← isCommand_eq_false_iff, hc, hidle]
  | encPop =>
    by_cases hidle : s.encCnt = 0#3 <;> cases reason <;> simp [opAnswer, refusalCondition, hidle]
  | decByte b =>
    by_cases hd : s.decCnt < 4#3 <;> cases reason <;> simp [opAnswer, refusalCondition, hd]
  | reset | crcInit | crcByte | crcRead | decSync => cases reason <;> simp [opAnswer, refusalCondition]

/-- Settles O39: the answer is a refusal exactly by the table of R181, and a refused operation leaves its reason only. -/
theorem refusalsAreExactlyTheFive : Obligations.RefusalsAreExactlyTheFive := by
  intro o s
  have hiff := opAnswer_eq_refused_iff o s
  refine ⟨afterOp o s, opAnswer o s, perform_eq o s, afterOp_transcript_eq o s, ?_, hiff .wordWhileResidue,
    hiff .tailResidue, hiff .badOpcode, hiff .encoderBusy, hiff .encoderIdle⟩
  rintro ⟨reason, hrefused⟩
  rw [afterOp_of_refused o s reason hrefused]
  exact ⟨⟨rfl, rfl, rfl, rfl, rfl, rfl, rfl⟩, rfl, rfl⟩

end Sys2Proof.Machine
end
